-- ==== Sys2Proof/Word.lean ====
section
/-! DEFINITION. The machine's word types (R5, R7): every value is an unsigned integer of a stated width. -/

namespace Sys2Proof

/-- A byte: a general register, a memory byte, a timer value (R20, R26, R28). -/
abbrev Byte := BitVec 8

/-- A 16-bit value: an instruction word, the index register, the program counter, a stack slot, the key mask. -/
abbrev Word := BitVec 16

/-- The 12-bit address field NNN of an instruction (R71). -/
abbrev Addr := BitVec 12

/-- The 4-bit field N of an instruction used as an immediate (R71, R73). -/
abbrev Nibble := BitVec 4

end Sys2Proof
end

