-- ==== Sys2Proof/Syntax.lean ====
section
/-! DEFINITION. The instructions: one constructor per row of R74, its operands the fields its format uses (R72). -/

namespace Sys2Proof

/-- The number of a general register, 0 to 15 (R20). -/
abbrev Reg := Fin 16

/-- The 34 instructions of R74, named as spec/opcode_table.json names its rows. -/
inductive Instr where
  | cls
  | ret
  | jpNNN (nnn : Addr)
  | callNNN (nnn : Addr)
  | seVxNN (x : Reg) (nn : Byte)
  | sneVxNN (x : Reg) (nn : Byte)
  | seVxVy (x y : Reg)
  | ldVxNN (x : Reg) (nn : Byte)
  | addVxNN (x : Reg) (nn : Byte)
  | ldVxVy (x y : Reg)
  | orVxVy (x y : Reg)
  | andVxVy (x y : Reg)
  | xorVxVy (x y : Reg)
  | addVxVy (x y : Reg)
  | subVxVy (x y : Reg)
  | shrVxVy (x y : Reg)
  | subnVxVy (x y : Reg)
  | shlVxVy (x y : Reg)
  | sneVxVy (x y : Reg)
  | ldINNN (nnn : Addr)
  | jpV0NNN (nnn : Addr)
  | rndVxNN (x : Reg) (nn : Byte)
  | drwVxVyN (x y : Reg) (n : Nibble)
  | skpVx (x : Reg)
  | sknpVx (x : Reg)
  | ldVxDT (x : Reg)
  | ldVxK (x : Reg)
  | ldDTVx (x : Reg)
  | ldSTVx (x : Reg)
  | addIVx (x : Reg)
  | ldFVx (x : Reg)
  | bcdVx (x : Reg)
  | ldMemVx (x : Reg)
  | ldVxMem (x : Reg)
  deriving DecidableEq, Repr

end Sys2Proof
end

