-- ==== Sys2Proof/Config.lean ====
section
/-! DEFINITION. What an implementation fixes (the open parameters of R6) and the values only the host can supply (R224):
constants with no body, so that nothing proved of the model can rest on a value of them. -/

namespace Sys2Proof

/-- What happens to a sprite pixel aimed beyond the screen (R183). -/
inductive EdgeMode where
  | clip   -- the pixel is dropped
  | wrap   -- the coordinates are taken modulo 64 and 32
  deriving DecidableEq, Repr, Inhabited

/-- Which register SHR and SHL shift (R144, R148). -/
inductive ShiftSource where
  | x
  | y
  deriving DecidableEq, Repr, Inhabited

/-- The open parameters of R6, all five: arguments of the step relation (`stepWith`), never state. Log entry 31. -/
structure Params where
  /-- DRAW_EDGE_MODE: what the draw does beyond the screen (R183) -/
  drawEdgeMode : EdgeMode
  /-- SHIFT_SOURCE: which register SHR and SHL shift (R144, R148) -/
  shiftSource : ShiftSource
  /-- ADMIT_8XY0: whether 8XY0 is LD Vx,Vy or no instruction (R76, R133) -/
  admit8XY0 : Bool
  /-- MEM_INIT_FILL: what `initialize` leaves at an address outside the glyph table and the image (R31, R260) -/
  memInitFill : Nat → Byte
  /-- FONT: the 80 bytes of the glyph table (R34) -/
  font : Vector Byte 80

/-- This machine's DRAW_EDGE_MODE (R6, R183, D9): open, "none: every claim names the mode or quantifies over both". Log entry 7. -/
opaque Config.drawEdgeMode : EdgeMode

/-- This machine's SHIFT_SOURCE (R6, R144, D6): open. Log entry 8. -/
opaque Config.shiftSource : ShiftSource

/-- The random byte the obedient host supplies at its `k`-th supply (R217, R224): any value. Log entry 5. -/
opaque Config.suppliedByte : Nat → Byte

/-- The key the obedient host supplies at its `k`-th supply (R218, R224): any value 0 to 15. Log entry 5. -/
opaque Config.suppliedKey : Nat → Fin 16

/-- The tick count the obedient host supplies at its `k`-th supply (R219, R224): any value. Log entry 5. -/
opaque Config.suppliedTicks : Nat → Byte

end Sys2Proof
end

