-- ==== Sys2Proof/Machine/Params.lean ====
section
/-! DEFINITION. The five parameters of R6 as this machine sets them: two are left open (opaque constants of Config), three take the
spec's stated default. Every definition that depends on one takes it as an argument, or all five as a `Params`; this file is the
instance that `step` runs with. -/

namespace Sys2Proof.Machine

/-- DRAW_EDGE_MODE: left open (D9, log entry 7). -/
def drawEdgeMode : EdgeMode := Config.drawEdgeMode

/-- SHIFT_SOURCE: left open (D6, log entry 8). -/
def shiftSource : ShiftSource := Config.shiftSource

/-- ADMIT_8XY0: DESIGN CHOICE `true`, the spec's default (R6, R133, D3). Unsafe on a strict chip (log entry 9). -/
def admit8XY0 : Bool := true

/-- MEM_INIT_FILL: DESIGN CHOICE the constant 0x00, the spec's default (R6, R31, D20). Unsafe (log entry 10). -/
def memInitFill (_a : Nat) : Byte := 0x00

/-- FONT (R34): 16 glyphs of 5 bytes. PRESUMED: the customary bytes, the spec's default from general knowledge (D22). Unsafe
(log entry 11). -/
def fontTable : Vector Byte 80 :=
  #v[0xF0, 0x90, 0x90, 0x90, 0xF0,   0x20, 0x60, 0x20, 0x20, 0x70,
     0xF0, 0x10, 0xF0, 0x80, 0xF0,   0xF0, 0x10, 0xF0, 0x10, 0xF0,
     0x90, 0x90, 0xF0, 0x10, 0x10,   0xF0, 0x80, 0xF0, 0x10, 0xF0,
     0xF0, 0x80, 0xF0, 0x90, 0xF0,   0xF0, 0x10, 0x20, 0x40, 0x40,
     0xF0, 0x90, 0xF0, 0x90, 0xF0,   0xF0, 0x90, 0xF0, 0x10, 0xF0,
     0xF0, 0x90, 0xF0, 0x90, 0x90,   0xE0, 0x90, 0xE0, 0x90, 0xE0,
     0xF0, 0x80, 0x80, 0x80, 0xF0,   0xE0, 0x90, 0x90, 0x90, 0xE0,
     0xF0, 0x80, 0xF0, 0x80, 0xF0,   0xF0, 0x80, 0xF0, 0x80, 0x80]

/-- The parameters this machine runs with. -/
def machineParams : Params where
  drawEdgeMode := drawEdgeMode
  shiftSource := shiftSource
  admit8XY0 := admit8XY0
  memInitFill := memInitFill
  font := fontTable

/-- What `initialize` leaves at address `a` before it copies the image (R31, R260): the glyph table in 0x000 to 0x04F (C1),
the fill elsewhere. -/
def initByte (p : Params) (a : Nat) : Byte := if h : a < 80 then p.font[a] else p.memInitFill a

/-- What an address no cell is listed for reads as: this machine's reset contents. Under other parameters it only says how memory is
written down: `initialize` lists every byte that differs from it (log entry 31). -/
def resetByte (a : Nat) : Byte := initByte machineParams a

end Sys2Proof.Machine
end

