-- ==== Sys2Proof/WellFormed.lean ====
section
/-! DEFINITION. Which instruction terms exist. The field widths of R71 are in the types; the one further condition is that of the
opcode table's row 10: 8XY0 is an instruction only where ADMIT_8XY0 is true (R76, R133). -/

namespace Sys2Proof

/-- Whether an instruction exists under a setting of ADMIT_8XY0 (R76: "and `N = 0` too when `ADMIT_8XY0 = false`"). -/
def Instr.wellFormedWith (admits : Bool) : Instr → Bool
  | .ldVxVy _ _ => admits
  | .cls | .ret | .jpNNN _ | .callNNN _ | .seVxNN _ _ | .sneVxNN _ _ | .seVxVy _ _ | .ldVxNN _ _ | .addVxNN _ _
  | .orVxVy _ _ | .andVxVy _ _ | .xorVxVy _ _ | .addVxVy _ _ | .subVxVy _ _ | .shrVxVy _ _ | .subnVxVy _ _
  | .shlVxVy _ _ | .sneVxVy _ _ | .ldINNN _ | .jpV0NNN _ | .rndVxNN _ _ | .drwVxVyN _ _ _ | .skpVx _ | .sknpVx _
  | .ldVxDT _ | .ldVxK _ | .ldDTVx _ | .ldSTVx _ | .addIVx _ | .ldFVx _ | .bcdVx _ | .ldMemVx _ | .ldVxMem _ => true

/-- Well-formed on this machine, at the setting of Machine/Params.lean. -/
def Instr.wellFormed (i : Instr) : Bool := i.wellFormedWith Machine.admit8XY0

end Sys2Proof
end

