-- ==== Sys2Proof/Decode.lean ====
section
/-! DEFINITION. Decoding (R70 to R76), total on any bytes, rejecting by name; then the encoder, from the same table. -/

namespace Sys2Proof

/-- `OP = w[15:12]` (R71). -/
def fieldOP (w : Word) : Nibble := w.extractLsb' 12 4

/-- `X = w[11:8]` as a register number (R71). -/
def fieldX (w : Word) : Reg := (w.extractLsb' 8 4 : BitVec 4).toFin

/-- `Y = w[7:4]` as a register number (R71). -/
def fieldY (w : Word) : Reg := (w.extractLsb' 4 4 : BitVec 4).toFin

/-- `N = w[3:0]` (R71). -/
def fieldN (w : Word) : Nibble := w.extractLsb' 0 4

/-- `NN = w[7:0]` (R71). -/
def fieldNN (w : Word) : Byte := w.extractLsb' 0 8

/-- `NNN = w[11:0]` (R71). -/
def fieldNNN (w : Word) : Addr := w.extractLsb' 0 12

/-- The register-register family, OP = 8, by its sub-opcode N (R74 rows 10 to 18; R76 for the rest). -/
def decodeFamily8 (admits : Bool) (w : Word) : Option Instr :=
  match fieldN w with
  | 0x0#4 => if admits then some (.ldVxVy (fieldX w) (fieldY w)) else none
  | 0x1#4 => some (.orVxVy (fieldX w) (fieldY w))
  | 0x2#4 => some (.andVxVy (fieldX w) (fieldY w))
  | 0x3#4 => some (.xorVxVy (fieldX w) (fieldY w))
  | 0x4#4 => some (.addVxVy (fieldX w) (fieldY w))
  | 0x5#4 => some (.subVxVy (fieldX w) (fieldY w))
  | 0x6#4 => some (.shrVxVy (fieldX w) (fieldY w))
  | 0x7#4 => some (.subnVxVy (fieldX w) (fieldY w))
  | 0xE#4 => some (.shlVxVy (fieldX w) (fieldY w))
  | _ => none

/-- Family F by its low byte (R74 rows 26 to 34; R76 for the rest). -/
def decodeFamilyF (w : Word) : Option Instr :=
  match fieldNN w with
  | 0x07#8 => some (.ldVxDT (fieldX w))
  | 0x0A#8 => some (.ldVxK (fieldX w))
  | 0x15#8 => some (.ldDTVx (fieldX w))
  | 0x18#8 => some (.ldSTVx (fieldX w))
  | 0x1E#8 => some (.addIVx (fieldX w))
  | 0x29#8 => some (.ldFVx (fieldX w))
  | 0x33#8 => some (.bcdVx (fieldX w))
  | 0x55#8 => some (.ldMemVx (fieldX w))
  | 0x65#8 => some (.ldVxMem (fieldX w))
  | _ => none

/-- The instruction a word is, or none where it matches no row (R75, R76), under a setting of ADMIT_8XY0. -/
def decodeWordWith (admits : Bool) (w : Word) : Option Instr :=
  match fieldOP w with
  | 0x0#4 => if w = 0x00E0#16 then some .cls else if w = 0x00EE#16 then some .ret else none
  | 0x1#4 => some (.jpNNN (fieldNNN w))
  | 0x2#4 => some (.callNNN (fieldNNN w))
  | 0x3#4 => some (.seVxNN (fieldX w) (fieldNN w))
  | 0x4#4 => some (.sneVxNN (fieldX w) (fieldNN w))
  | 0x5#4 => if fieldN w = 0x0#4 then some (.seVxVy (fieldX w) (fieldY w)) else none
  | 0x6#4 => some (.ldVxNN (fieldX w) (fieldNN w))
  | 0x7#4 => some (.addVxNN (fieldX w) (fieldNN w))
  | 0x8#4 => decodeFamily8 admits w
  | 0x9#4 => if fieldN w = 0x0#4 then some (.sneVxVy (fieldX w) (fieldY w)) else none
  | 0xA#4 => some (.ldINNN (fieldNNN w))
  | 0xB#4 => some (.jpV0NNN (fieldNNN w))
  | 0xC#4 => some (.rndVxNN (fieldX w) (fieldNN w))
  | 0xD#4 => some (.drwVxVyN (fieldX w) (fieldY w) (fieldN w))
  | 0xE#4 =>
    if fieldNN w = 0x9E#8 then some (.skpVx (fieldX w))
    else if fieldNN w = 0xA1#8 then some (.sknpVx (fieldX w)) else none
  | _ => decodeFamilyF w

/-- The machine's decode of a word: one function for `step` and for the tools (R75). -/
def decodeWord (w : Word) : Option Instr := decodeWordWith Machine.admit8XY0 w

/-- Why bytes are no instruction. -/
inductive DecodeError where
  /-- fewer than the two bytes of an instruction (R70) -/
  | truncated
  /-- the word matches no row of R74 (R76) -/
  | invalidWord (w : Word)
  deriving DecidableEq, Repr

/-- The word of two bytes, the first the high one (R51, R71). -/
def wordOfBytes (hi lo : Byte) : Word := hi ++ lo

/-- Decoding of any bytes: the first instruction and the bytes after it. -/
def decode : List Byte → Except DecodeError (Instr × List Byte)
  | hi :: lo :: rest =>
    match decodeWord (wordOfBytes hi lo) with
    | some i => .ok (i, rest)
    | none => .error (.invalidWord (wordOfBytes hi lo))
  | _ => .error .truncated

/-- A register number as its 4-bit field. -/
def Reg.bits (r : Reg) : BitVec 4 := BitVec.ofFin r

/-- Format A: `OP NNN` (R72). -/
def wordA (op : BitVec 4) (nnn : Addr) : Word := op ++ nnn

/-- Formats XI and XS: `OP X NN` (R72). -/
def wordXI (op : BitVec 4) (x : Reg) (nn : Byte) : Word := (op ++ Reg.bits x : BitVec 8) ++ nn

/-- Formats XY and XYN: `OP X Y N` (R72). -/
def wordXY (op : BitVec 4) (x y : Reg) (n : BitVec 4) : Word := (op ++ Reg.bits x : BitVec 8) ++ (Reg.bits y ++ n : BitVec 8)

/-- The word of an instruction (R74). -/
def encode : Instr → Word
  | .cls => 0x00E0
  | .ret => 0x00EE
  | .jpNNN nnn => wordA 0x1 nnn
  | .callNNN nnn => wordA 0x2 nnn
  | .seVxNN x nn => wordXI 0x3 x nn
  | .sneVxNN x nn => wordXI 0x4 x nn
  | .seVxVy x y => wordXY 0x5 x y 0x0
  | .ldVxNN x nn => wordXI 0x6 x nn
  | .addVxNN x nn => wordXI 0x7 x nn
  | .ldVxVy x y => wordXY 0x8 x y 0x0
  | .orVxVy x y => wordXY 0x8 x y 0x1
  | .andVxVy x y => wordXY 0x8 x y 0x2
  | .xorVxVy x y => wordXY 0x8 x y 0x3
  | .addVxVy x y => wordXY 0x8 x y 0x4
  | .subVxVy x y => wordXY 0x8 x y 0x5
  | .shrVxVy x y => wordXY 0x8 x y 0x6
  | .subnVxVy x y => wordXY 0x8 x y 0x7
  | .shlVxVy x y => wordXY 0x8 x y 0xE
  | .sneVxVy x y => wordXY 0x9 x y 0x0
  | .ldINNN nnn => wordA 0xA nnn
  | .jpV0NNN nnn => wordA 0xB nnn
  | .rndVxNN x nn => wordXI 0xC x nn
  | .drwVxVyN x y n => wordXY 0xD x y n
  | .skpVx x => wordXI 0xE x 0x9E
  | .sknpVx x => wordXI 0xE x 0xA1
  | .ldVxDT x => wordXI 0xF x 0x07
  | .ldVxK x => wordXI 0xF x 0x0A
  | .ldDTVx x => wordXI 0xF x 0x15
  | .ldSTVx x => wordXI 0xF x 0x18
  | .addIVx x => wordXI 0xF x 0x1E
  | .ldFVx x => wordXI 0xF x 0x29
  | .bcdVx x => wordXI 0xF x 0x33
  | .ldMemVx x => wordXI 0xF x 0x55
  | .ldVxMem x => wordXI 0xF x 0x65

/-- The high byte of a word, stored at the lower address (R51). -/
def highByte (w : Word) : Byte := w.extractLsb' 8 8

/-- The low byte of a word, stored at the higher address (R51). -/
def lowByte (w : Word) : Byte := w.extractLsb' 0 8

/-- The two bytes of an instruction in memory order. -/
def encodeBytes (i : Instr) : List Byte := [highByte (encode i), lowByte (encode i)]

/-- The word of the table's numbering: `w`'s low `nbits` bits, bit 0 the least significant of the one 16-bit word. -/
def tableWord (nbits w : Nat) : Word := BitVec.ofNat 16 (w % 2 ^ nbits)

/-- The instruction the decoder reads from the bytes of a table word, laid out as memory holds them (R51). -/
def decodeTableWord (nbits w : Nat) : Option Instr :=
  match decode [highByte (tableWord nbits w), lowByte (tableWord nbits w)] with
  | .ok (i, _) => some i
  | .error _ => none

end Sys2Proof
end

