-- ==== Sys2Proof/Machine/State.lean ====
section
/-! DEFINITION. The state of the machine, the values its transactions return, the host's transactions, and the state after reset
(10_state.md, 60_exceptions.md). -/

namespace Sys2Proof.Machine

/-- The state of the deferred-completion protocol (R29). The source's transient `Running` is never seen between transactions. -/
inductive Phase where
  | ready
  | suspRandom
  | suspKey
  | suspDelay
  deriving DecidableEq, Repr

/-- Which timer a TimerWritten signal names (R103, R204, R206). -/
inductive Timer where
  | delay
  | sound
  deriving DecidableEq, Repr

/-- The sub-kinds of MemoryOutOfBounds (R172, R230; register dump and load share the third). -/
inductive BoundsKind where
  | spriteRead
  | bcdWrite
  | registerTransfer
  deriving DecidableEq, Repr

/-- The sixteen signals an accepted `step` can return, S0 to S15 (R230). -/
inductive Signal where
  | completed
  | displayChanged
  | timerWritten (t : Timer)
  | needsRandom
  | needsKey
  | needsDelay
  | invalidInstruction
  | stackUnderflow
  | stackOverflow
  | memoryOutOfBounds (k : BoundsKind)
  | badKeyIndex
  | badFontDigit
  | fetchOutOfRange
  deriving DecidableEq, Repr

/-- The screen: 32 rows of 64 one-bit pixels, `true` set (R27). -/
abbrev Framebuffer := Vector (Vector Bool 64) 32

/-- Memory in canonical form: cells by rising address, none equal to what an unlisted address reads as (R26, R31). -/
abbrev Memory := List Host.Cell

/-- What a transaction hands back to the host (R10, R222, R250). The MODEL's own record of it: log entry 2. -/
inductive Returned where
  /-- `-> void`: `initialize`, `set_keys` and the accepted supplies (R217 to R219, R250) -/
  | nothing
  /-- the signal of an accepted `step` (R230) -/
  | signal (g : Signal)
  /-- the outcome of a call that is not accepted (R222) -/
  | rejected
  /-- the host's read of `fb` (R252) -/
  | framebuffer (fb : Framebuffer)
  /-- the host's read of `keys` (R252) -/
  | keyMask (keys : Word)
  deriving DecidableEq, Repr

/-- The transactions of R250. Arguments are as the host passes them: out-of-range values can be passed, and are rejected. -/
inductive HostCall where
  /-- `initialize(image, length)`, the length being the number of bytes offered (R260; log entry 23) -/
  | initializeWith (image : List Byte)
  /-- `step()` (R100) -/
  | step
  /-- `supply_random(byte)` (R217) -/
  | supplyRandom (byte : Nat)
  /-- `supply_key(key)` (R218) -/
  | supplyKey (key : Nat)
  /-- `supply_delay(ticks)` (R219) -/
  | supplyDelay (ticks : Nat)
  /-- `set_keys(mask)` (R251) -/
  | setKeys (mask : Word)
  /-- read `fb` (R252) -/
  | readFramebuffer
  /-- read `keys` (R252) -/
  | readKeys
  deriving DecidableEq, Repr

/-- The machine's state: all of R31's table, and last three fields that are the model's own. -/
structure State where
  /-- the general registers `x[0]` to `x[15]`; `x[15]` is the flag register (R20, R21) -/
  x : Vector Byte 16
  /-- the index register (R23) -/
  I : Word
  /-- the program counter (R22) -/
  pc : Word
  /-- the call-stack slots (R24) -/
  stack : Vector Word 16
  /-- the call-stack depth, 0 to 16 (R24, R32) -/
  sp : Fin 17
  /-- the key state: bit `k` is key `k` (R25) -/
  keys : Word
  /-- the 4096 bytes of memory (R26, R50) -/
  mem : Memory
  /-- the framebuffer (R27) -/
  fb : Framebuffer
  /-- the pending delay value (R28) -/
  dt : Byte
  /-- the pending sound value (R28) -/
  st : Byte
  /-- the protocol phase (R29) -/
  phase : Phase
  /-- the model's own: what the last transaction returned (log entry 2) -/
  returned : Returned
  /-- the model's own: the host's pending transactions, oldest first (log entry 3) -/
  host : List HostCall
  /-- the model's own: how many values the obedient host has supplied (log entries 4, 5) -/
  draws : Nat
  deriving DecidableEq, Repr

/-- Why a step can stop the machine. No signal of R230 is one of these: "No condition is 'fatal' inside the core itself" (R236). -/
inductive Fault where
  /-- Raised by a supply transaction that would re-fetch its instruction from outside 0x000 to 0xFFF (R216: "in range and of the
  right opcode by rule R223"). No run reaches it. Safe: the spec gives such a re-fetch no meaning (log entry 25). -/
  | addressOutsideMemory
  deriving DecidableEq, Repr

/-- Why an instruction can be refused. -/
inductive Refusal where
  /-- Raised by an arm of exec whose instruction has no meaning yet; no arm of this model is one. Safe. -/
  | notModelled (mnemonic : String)
  deriving DecidableEq, Repr

/-- The machine right after `initialize` with an empty image (R31, R260, R263; log entry 22). Memory lists nothing: every address
reads as `resetByte`. -/
def State.reset : State where
  x := Vector.replicate 16 0x00
  I := 0x0000
  pc := 0x0200
  stack := Vector.replicate 16 0x0000
  sp := 0
  keys := 0x0000
  mem := []
  fb := Vector.replicate 32 (Vector.replicate 64 false)
  dt := 0x00
  st := 0x00
  phase := .ready
  returned := .nothing
  host := []
  draws := 0

end Sys2Proof.Machine
end

