-- ==== Sys2Proof/Machine/Memory.lean ====
section
/-! DEFINITION. The operations on the 4096-byte memory (R9, R50 to R60) and on the pixels of the framebuffer (R27). -/

namespace Sys2Proof.Machine

/-- One byte of memory (R9). A meaning reads an address only after its range check (R54). -/
def Memory.read : Memory → Nat → Byte
  | [], a => resetByte a
  | (b, v) :: m, a => if a = b then v else Memory.read m a

/-- The write of one byte, which keeps the canonical form: writing what an unlisted address reads as removes the cell (R9). A
meaning writes an address only after its range check (R54). -/
def Memory.write : Memory → Nat → Byte → Memory
  | [], a, v => if v = resetByte a then [] else [(a, v)]
  | (b, w) :: m, a, v =>
    if b < a then (b, w) :: Memory.write m a v
    else if b = a then (if v = resetByte a then m else (a, v) :: m)
    else if v = resetByte a then (b, w) :: m
    else (a, v) :: (b, w) :: m

/-- The cells have rising addresses from `lo` on, all below 0x1000 (R50), and none is listed for what it would read as anyway. -/
def Memory.wfFrom : Nat → Memory → Bool
  | _, [] => true
  | lo, (a, v) :: m => decide (lo ≤ a) && decide (a < 0x1000) && decide (v ≠ resetByte a) && Memory.wfFrom (a + 1) m

/-- The canonical form of memory. -/
def Memory.wf (m : Memory) : Bool := Memory.wfFrom 0 m

/-- Bytes written at ascending addresses from `a` (R52). -/
def Memory.writeBytes : Memory → Nat → List Byte → Memory
  | m, _, [] => m
  | m, a, v :: vs => Memory.writeBytes (m.write a v) (a + 1) vs

/-- The last `n` addresses of a memory whose byte at `a` is `f a`; with `n` 0x1000, all of it (the first two loops of R260). A byte
that an unlisted address reads as anyway is not listed. -/
def Memory.ofBytes (f : Nat → Byte) : Nat → Memory
  | 0 => []
  | n + 1 =>
    if f (0xFFF - n) = resetByte (0xFFF - n) then Memory.ofBytes f n
    else (0xFFF - n, f (0xFFF - n)) :: Memory.ofBytes f n

/-- The big-endian word at `a` and `a + 1` (R9, R51). -/
def Memory.readWord (m : Memory) (a : Nat) : Word := wordOfBytes (m.read a) (m.read (a + 1))

/-- A word stored as instruction fetch reads it: the high byte at the lower address (R51). -/
def Memory.writeWord (m : Memory) (a : Nat) (w : Word) : Memory := (m.write a (highByte w)).write (a + 1) (lowByte w)

/-- Registers `x[0]` to `x[n-1]` written at `a`, `a + 1`, ... in ascending order (the loop of R168). -/
def Memory.writeRegs (m : Memory) (a : Nat) (x : Vector Byte 16) : (n : Nat) → n ≤ 16 → Memory
  | 0, _ => m
  | n + 1, h => (Memory.writeRegs m a x n (Nat.le_of_succ_le h)).write (a + n) x[n]

/-- The registers after `x[0]` to `x[n-1]` are read from `a`, `a + 1`, ... in ascending order (the loop of R170). -/
def Memory.readRegs (m : Memory) (a : Nat) (x : Vector Byte 16) : (n : Nat) → n ≤ 16 → Vector Byte 16
  | 0, _ => x
  | n + 1, h => (Memory.readRegs m a x n (Nat.le_of_succ_le h)).set n (m.read (a + n))

/-- `fb(px, py)`: column `px` from the left, row `py` from the top (R27). -/
def Framebuffer.pixel (fb : Framebuffer) (px : Fin 64) (py : Fin 32) : Bool := fb[py.val][px.val]

/-- `fb(px, py) <- b`. -/
def Framebuffer.setPixel (fb : Framebuffer) (px : Fin 64) (py : Fin 32) (b : Bool) : Framebuffer :=
  fb.set py.val (fb[py.val].set px.val b)

/-- Every pixel 0 (R180, R260). -/
def Framebuffer.blank : Framebuffer := Vector.replicate 32 (Vector.replicate 64 false)

end Sys2Proof.Machine
end

