-- ==== Sys2Proof/Machine/Ops.lean ====
section
/-! DEFINITION. The named operations over State every meaning is made of: registers, fetch, the ends of a transaction (R10, R22). -/

namespace Sys2Proof.Machine

/-- The three outcomes of a step of this machine. -/
abbrev Outcome := Host.Outcome State Fault Refusal

/-- `x[i]` (R8, R20). -/
def State.reg (s : State) (r : Reg) : Byte := s.x[r.val]

/-- `x[i] <- v` (R8, R20). No register is hardwired. -/
def State.setReg (s : State) (r : Reg) (v : Byte) : State := { s with x := s.x.set r.val v }

/-- The number of the flag register (R21). -/
def flagReg : Reg := 15

/-- The byte at an address (R9). -/
def State.readByte (s : State) (a : Nat) : Byte := s.mem.read a

/-- The byte at an address written (R9). -/
def State.writeByte (s : State) (a : Nat) (v : Byte) : State := { s with mem := s.mem.write a v }

/-- `MemRead(pc, 2)`, or none where `pc` and `pc + 1` are not both in memory (R54: "`pc > 0xFFE`"). -/
def State.fetch (s : State) : Option Word :=
  if s.pc.toNat ≤ 0xFFE then some (s.mem.readWord s.pc.toNat) else none

/-- `pc <- pc + n`, modulo 2^16 (R22). -/
def State.advance (s : State) (n : Word) : State := { s with pc := s.pc + n }

/-- `pc <- t` (R22). -/
def State.jump (s : State) (t : Word) : State := { s with pc := t }

/-- What the transaction hands back. -/
def State.returning (s : State) (r : Returned) : State := { s with returned := r }

/-- `return S` of a `step` (R10): the rule's writes stand, the host gets the signal. -/
def returnSignal (g : Signal) (s : State) : Outcome := .next (s.returning (.signal g))

/-- `pc <- pc + 2; return S`: the end of every instruction that neither branches, skips, suspends nor raises (R22). -/
def complete (g : Signal) (s : State) : Outcome := returnSignal g (s.advance 2)

/-- `if c: pc <- pc + 4 else pc <- pc + 2; return Completed`: the end of every skip (R22, 40 section 3, C2). -/
def skipIf (c : Bool) (s : State) : Outcome := returnSignal .completed (s.advance (if c then 4 else 2))

/-- `pc <- t; return Completed`: the end of RET, JP, CALL and JP V0 (R22). -/
def transfer (t : Word) (s : State) : Outcome := returnSignal .completed (s.jump t)

/-- `raise S`, the machine's taking of an exception (R10, R236): "it saves nothing, changes no mode, masks nothing, pushes nothing,
and transfers control nowhere"; the state is what it was, the host gets the signal, and the machine can be stepped again (R237;
log entry 1). There is no return from it: "There is no return-from-trap instruction and no handler" (R237). -/
def raise (g : Signal) (s : State) : Outcome := returnSignal g s

/-- A call that is not accepted: the outcome Rejected, no state changed (R222; log entry 19). -/
def reject (s : State) : Outcome := .next (s.returning .rejected)

/-- `phase <- p; return S`: the first half of a deferred instruction (R210, R212 to R214). -/
def suspend (p : Phase) (g : Signal) (s : State) : Outcome := returnSignal g { s with phase := p }

end Sys2Proof.Machine
end

