-- ==== Sys2Proof/Machine/Operands.lean ====
section
/-! DEFINITION. The operand forms: R73's immediates, the shift source, and the memory operands addressed by I (R54). -/

namespace Sys2Proof.Machine

/-- `zext_16(NNN)` (R73). -/
def addrOperand (nnn : Addr) : Word := nnn.zeroExtend 16

/-- `zext_16(x[i])` (R113, R162, R164). -/
def regOperand16 (s : State) (r : Reg) : Word := (s.reg r).zeroExtend 16

/-- `v = x[X] if SHIFT_SOURCE = X else x[Y]` (R144, R148). -/
def shiftOperand (src : ShiftSource) (s : State) (x y : Reg) : Byte :=
  match src with
  | .x => s.reg x
  | .y => s.reg y

/-- The base address of a memory operand: the full 16 bits of I, never masked (R23, R50). -/
def State.base (s : State) : Nat := s.I.toNat

/-- The sprite's bytes are in memory: not `I + N > 0x1000` (R54, D11). -/
def spriteInRange (s : State) (n : Nibble) : Bool := decide (s.base + n.toNat ≤ 0x1000)

/-- BCD's three bytes are in memory: not `I + 2 > 0xFFF` (R54). -/
def bcdInRange (s : State) : Bool := decide (s.base + 2 ≤ 0xFFF)

/-- The `X + 1` bytes of a register transfer are in memory: not `I + X > 0xFFF` (R54). -/
def transferInRange (s : State) (x : Reg) : Bool := decide (s.base + x.val ≤ 0xFFF)

/-- The three decimal digits of a byte, most significant first (R166). -/
def bcdDigits (v : Byte) : List Byte :=
  [BitVec.ofNat 8 (v.toNat / 100), BitVec.ofNat 8 (v.toNat / 10 % 10), BitVec.ofNat 8 (v.toNat % 10)]

/-- The key or digit number in a register, where it is at most 15; it is not masked (R164, R200). -/
def nibbleOperand (s : State) (r : Reg) : Option (Fin 16) :=
  if h : (s.reg r).toNat < 16 then some ⟨(s.reg r).toNat, h⟩ else none

/-- Bit `k` of the key state (R25). -/
def keyDown (s : State) (k : Fin 16) : Bool := s.keys.getLsbD k.val

end Sys2Proof.Machine
end

