-- ==== Sys2Proof/Machine/Flags.lean ====
section
/-! DEFINITION. The flag computations (R21): what each flag-writing instruction puts into x[15], always the byte 0x00 or 0x01. -/

namespace Sys2Proof.Machine

/-- A flag as the 8-bit value written to `x[15]` (R21: "never a single bit"). -/
def flagByte (b : Bool) : Byte := if b then 0x01 else 0x00

/-- ADD: `1 if s > 255 else 0` (R140). -/
def carryFlag (a b : Byte) : Byte := flagByte (decide (a.toNat + b.toNat > 255))

/-- SUB and SUBN: 1 exactly when minuend `>=` subtrahend, before the subtraction (R142, R146, C5, D8). -/
def noBorrowFlag (minuend subtrahend : Byte) : Byte := flagByte (decide (minuend.toNat ≥ subtrahend.toNat))

/-- SHR: the bit shifted out, `v[0]` (R144). -/
def shiftedOutLow (v : Byte) : Byte := flagByte (v.getLsbD 0)

/-- SHL: the bit shifted out, `v[7]` (R148). -/
def shiftedOutHigh (v : Byte) : Byte := flagByte (v.getLsbD 7)

/-- `x[X] <- res` and then `x[15] <- flag`, so the flag is what remains where X is 15 (R11, R132, R150, D7; log entry 13). -/
def State.writeResultAndFlag (s : State) (x : Reg) (res flag : Byte) : State := (s.setReg x res).setReg flagReg flag

end Sys2Proof.Machine
end

