-- ==== Sys2Proof/Machine/Alu.lean ====
section
/-! DEFINITION. Register loads and the 8-bit ALU (41_load_and_alu.md). -/

namespace Sys2Proof.Machine

/-- LD Vx,NN (R130). -/
def execLdVxNN (x : Reg) (nn : Byte) (s : State) : Outcome := complete .completed (s.setReg x nn)

/-- ADD Vx,NN (R131): no flag. -/
def execAddVxNN (x : Reg) (nn : Byte) (s : State) : Outcome := complete .completed (s.setReg x (s.reg x + nn))

/-- LD Vx,Vy (R133): no flag. Whether the word exists is the decoder's business (ADMIT_8XY0). -/
def execLdVxVy (x y : Reg) (s : State) : Outcome := complete .completed (s.setReg x (s.reg y))

/-- OR Vx,Vy (R134): no flag (D5, log entry 14). -/
def execOrVxVy (x y : Reg) (s : State) : Outcome := complete .completed (s.setReg x (s.reg x ||| s.reg y))

/-- AND Vx,Vy (R136): no flag (D5, log entry 14). -/
def execAndVxVy (x y : Reg) (s : State) : Outcome := complete .completed (s.setReg x (s.reg x &&& s.reg y))

/-- XOR Vx,Vy (R138): no flag (D5, log entry 14). -/
def execXorVxVy (x y : Reg) (s : State) : Outcome := complete .completed (s.setReg x (s.reg x ^^^ s.reg y))

/-- ADD Vx,Vy (R140). -/
def execAddVxVy (x y : Reg) (s : State) : Outcome :=
  complete .completed (s.writeResultAndFlag x (s.reg x + s.reg y) (carryFlag (s.reg x) (s.reg y)))

/-- SUB Vx,Vy (R142). -/
def execSubVxVy (x y : Reg) (s : State) : Outcome :=
  complete .completed (s.writeResultAndFlag x (s.reg x - s.reg y) (noBorrowFlag (s.reg x) (s.reg y)))

/-- SHR with its operand's register chosen by `src` (R144). -/
def shiftRight (src : ShiftSource) (x y : Reg) (s : State) : Outcome :=
  complete .completed
    (s.writeResultAndFlag x (shiftOperand src s x y >>> 1) (shiftedOutLow (shiftOperand src s x y)))

/-- SHR Vx,Vy (R144). -/
def execShrVxVy (x y : Reg) (s : State) : Outcome := shiftRight shiftSource x y s

/-- SUBN Vx,Vy (R146): the minuend is `x[Y]`. -/
def execSubnVxVy (x y : Reg) (s : State) : Outcome :=
  complete .completed (s.writeResultAndFlag x (s.reg y - s.reg x) (noBorrowFlag (s.reg y) (s.reg x)))

/-- SHL with its operand's register chosen by `src` (R148). -/
def shiftLeft (src : ShiftSource) (x y : Reg) (s : State) : Outcome :=
  complete .completed
    (s.writeResultAndFlag x (shiftOperand src s x y <<< 1) (shiftedOutHigh (shiftOperand src s x y)))

/-- SHL Vx,Vy (R148). -/
def execShlVxVy (x y : Reg) (s : State) : Outcome := shiftLeft shiftSource x y s

end Sys2Proof.Machine
end

