-- ==== Sys2Proof/Machine/Control.lean ====
section
/-! DEFINITION. Control transfer and skips (40_control_flow.md): RET, JP, CALL, SE, SNE, JP V0. -/

namespace Sys2Proof.Machine

/-- RET (R105). -/
def execRet (s : State) : Outcome :=
  if h : s.sp.val = 0 then raise .stackUnderflow s
  else
    transfer (s.stack[s.sp.val - 1]'(by have := s.sp.isLt; omega) + 2)
      { s with sp := ⟨s.sp.val - 1, by have := s.sp.isLt; omega⟩ }

/-- JP NNN (R106). -/
def execJpNNN (nnn : Addr) (s : State) : Outcome := transfer (addrOperand nnn) s

/-- CALL NNN (R107): the pushed value is the address of the CALL itself; RET adds the 2. -/
def execCallNNN (nnn : Addr) (s : State) : Outcome :=
  if h : s.sp.val < 16 then
    transfer (addrOperand nnn)
      { s with stack := s.stack.set s.sp.val s.pc, sp := ⟨s.sp.val + 1, by omega⟩ }
  else raise .stackOverflow s

/-- SE Vx,NN (R108). -/
def execSeVxNN (x : Reg) (nn : Byte) (s : State) : Outcome := skipIf (s.reg x == nn) s

/-- SNE Vx,NN (R109). -/
def execSneVxNN (x : Reg) (nn : Byte) (s : State) : Outcome := skipIf (s.reg x != nn) s

/-- SE Vx,Vy (R110). -/
def execSeVxVy (x y : Reg) (s : State) : Outcome := skipIf (s.reg x == s.reg y) s

/-- SNE Vx,Vy (R111). -/
def execSneVxVy (x y : Reg) (s : State) : Outcome := skipIf (s.reg x != s.reg y) s

/-- JP V0,NNN (R113): the offset register is always `x[0]`, and the sum is not reduced modulo 4096. -/
def execJpV0NNN (nnn : Addr) (s : State) : Outcome := transfer (addrOperand nnn + regOperand16 s 0) s

end Sys2Proof.Machine
end

