-- ==== Sys2Proof/Machine/Deferred.lean ====
section
/-! DEFINITION. The deferred-completion protocol (45_deferred_completion.md): the suspending halves, which are the instructions'
meanings at `step`, and the supply transactions that complete them. -/

namespace Sys2Proof.Machine

/-- RND Vx,NN at `step` (R212): only `phase` is written. -/
def execRndVxNN (_x : Reg) (_nn : Byte) (s : State) : Outcome := suspend .suspRandom .needsRandom s

/-- LD Vx,K at `step` (R213): `keys` is not read. -/
def execLdVxK (_x : Reg) (s : State) : Outcome := suspend .suspKey .needsKey s

/-- LD Vx,DT at `step` (R214): `dt` is not read. -/
def execLdVxDT (_x : Reg) (s : State) : Outcome := suspend .suspDelay .needsDelay s

/-- The end of an accepted supply for the re-decoded word `w`: `x[X] <- v; pc <- pc + 2; phase <- Ready`, nothing returned. -/
def supplied (w : Word) (v : Byte) (s : State) : State :=
  State.returning { (s.setReg (fieldX w) v).advance 2 with phase := .ready } .nothing

/-- The frame of the three supplies (R216, R222): accepted in the matching phase with an argument in range, it reads the word at
`pc` again and takes its fields by the decoder's own functions (log entry 29). Outside memory it faults (log entry 25). -/
def supply (kind : Phase) (inRange : Bool) (value : Word → Byte) (s : State) : Outcome :=
  if s.phase = kind ∧ inRange = true then
    match s.fetch with
    | some w => .next (supplied w (value w) s)
    | none => .fault .addressOutsideMemory
  else reject s

/-- `supply_random(byte)` (R217). -/
def supplyRandom (byte : Nat) (s : State) : Outcome :=
  supply .suspRandom (decide (byte ≤ 255)) (fun w => BitVec.ofNat 8 byte &&& fieldNN w) s

/-- `supply_key(key)` (R218): `keys` is neither read nor written. -/
def supplyKey (key : Nat) (s : State) : Outcome :=
  supply .suspKey (decide (key ≤ 15)) (fun _ => BitVec.ofNat 8 key) s

/-- `supply_delay(ticks)` (R219): `dt` is neither read nor written. -/
def supplyDelay (ticks : Nat) (s : State) : Outcome :=
  supply .suspDelay (decide (ticks ≤ 255)) (fun _ => BitVec.ofNat 8 ticks) s

end Sys2Proof.Machine
end

