-- ==== Sys2Proof/Machine/Display.lean ====
section
/-! DEFINITION. The display (43_display.md): CLS, DRW, the edge modes and the collision detector. -/

namespace Sys2Proof.Machine

/-- CLS (R180): the signal is unconditional. -/
def execCls (s : State) : Outcome := complete .displayChanged { s with fb := Framebuffer.blank }

/-- Where a sprite pixel aimed at `(tx, ty)` lands, none where it is dropped (R183). A pixel aimed at the screen lands there in
both modes. -/
def landing (mode : EdgeMode) (tx ty : Nat) : Option (Fin 64 × Fin 32) :=
  if h : tx < 64 ∧ ty < 32 then some (⟨tx, h.1⟩, ⟨ty, h.2⟩)
  else
    match mode with
    | .clip => none
    | .wrap => some (⟨tx % 64, Nat.mod_lt _ (by decide)⟩, ⟨ty % 32, Nat.mod_lt _ (by decide)⟩)

/-- The framebuffer while a sprite is drawn, and whether a pixel went from set to unset (the `hit` of R184). -/
abbrev Drawing := Framebuffer × Bool

/-- One set sprite pixel aimed at `(tx, ty)`: the framebuffer pixel is inverted, a set one is a hit (R184). -/
def drawPixel (mode : EdgeMode) (tx ty : Nat) (d : Drawing) : Drawing :=
  match landing mode tx ty with
  | none => d
  | some (px, py) => (d.1.setPixel px py (!d.1.pixel px py), d.2 || d.1.pixel px py)

/-- The columns 0 to `n - 1` of one sprite row: bit 7 is column 0 (R182, the inner loop of R184). -/
def drawRow (mode : EdgeMode) (b : Byte) (x0 ty : Nat) : Nat → Drawing → Drawing
  | 0, d => d
  | c + 1, d =>
    if b.getLsbD (7 - c) then drawPixel mode (x0 + c) ty (drawRow mode b x0 ty c d)
    else drawRow mode b x0 ty c d

/-- The rows 0 to `n - 1` of the sprite at `a` (the outer loop of R184). -/
def drawRows (mode : EdgeMode) (m : Memory) (a x0 y0 : Nat) : Nat → Drawing → Drawing
  | 0, d => d
  | r + 1, d => drawRow mode (m.read (a + r)) x0 (y0 + r) 8 (drawRows mode m a x0 y0 r d)

/-- What a draw makes of the framebuffer, and its hit (R184). -/
def spriteDrawing (mode : EdgeMode) (x y : Reg) (n : Nibble) (s : State) : Drawing :=
  drawRows mode s.mem s.base (s.reg x).toNat (s.reg y).toNat n.toNat (s.fb, false)

/-- DRW under an edge mode (R184): the check comes before everything, the coordinates are read before `x[15]` is written. -/
def drawSprite (mode : EdgeMode) (x y : Reg) (n : Nibble) (s : State) : Outcome :=
  if spriteInRange s n then
    complete .displayChanged
      (State.setReg { s with fb := (spriteDrawing mode x y n s).1 } flagReg (flagByte (spriteDrawing mode x y n s).2))
  else raise (.memoryOutOfBounds .spriteRead) s

/-- DRW Vx,Vy,N (R184). -/
def execDrwVxVyN (x y : Reg) (n : Nibble) (s : State) : Outcome := drawSprite drawEdgeMode x y n s

end Sys2Proof.Machine
end

