-- ==== Sys2Proof/Machine/Index.lean ====
section
/-! DEFINITION. The index register and the memory instructions (42_index_and_memory.md). None changes I but the first three. -/

namespace Sys2Proof.Machine

/-- LD I,NNN (R160). -/
def execLdINNN (nnn : Addr) (s : State) : Outcome := complete .completed { s with I := addrOperand nnn }

/-- ADD I,Vx (R162): modulo 2^16, no flag. -/
def execAddIVx (x : Reg) (s : State) : Outcome := complete .completed { s with I := s.I + regOperand16 s x }

/-- LD F,Vx (R164): the digit is not masked; the address is `5 * x[X]`. -/
def execLdFVx (x : Reg) (s : State) : Outcome :=
  match nibbleOperand s x with
  | some _ => complete .completed { s with I := 5 * regOperand16 s x }
  | none => raise .badFontDigit s

/-- BCD Vx (R166): all three digits, or nothing. -/
def execBcdVx (x : Reg) (s : State) : Outcome :=
  if bcdInRange s then
    complete .completed { s with mem := s.mem.writeBytes s.base (bcdDigits (s.reg x)) }
  else raise (.memoryOutOfBounds .bcdWrite) s

/-- LD [I],Vx, register-dump (R168): `x[0]` to `x[X]`, X the field itself; all of them, or nothing. -/
def execLdMemVx (x : Reg) (s : State) : Outcome :=
  if transferInRange s x then
    complete .completed { s with mem := s.mem.writeRegs s.base s.x (x.val + 1) x.isLt }
  else raise (.memoryOutOfBounds .registerTransfer) s

/-- LD Vx,[I], register-load (R170): `x[0]` to `x[X]`; all of them, or nothing. -/
def execLdVxMem (x : Reg) (s : State) : Outcome :=
  if transferInRange s x then
    complete .completed { s with x := s.mem.readRegs s.base s.x (x.val + 1) x.isLt }
  else raise (.memoryOutOfBounds .registerTransfer) s

end Sys2Proof.Machine
end

