-- ==== Sys2Proof/Machine/Keypad.lean ====
section
/-! DEFINITION. Keypad skips and timer writes (44_keypad_and_timers.md). -/

namespace Sys2Proof.Machine

/-- SKP Vx (R200): the key number is the whole register, not masked. -/
def execSkpVx (x : Reg) (s : State) : Outcome :=
  match nibbleOperand s x with
  | some k => skipIf (keyDown s k) s
  | none => raise .badKeyIndex s

/-- SKNP Vx (R202). -/
def execSknpVx (x : Reg) (s : State) : Outcome :=
  match nibbleOperand s x with
  | some k => skipIf (!keyDown s k) s
  | none => raise .badKeyIndex s

/-- LD DT,Vx (R204): the value is stored, no countdown starts. -/
def execLdDTVx (x : Reg) (s : State) : Outcome := complete (.timerWritten .delay) { s with dt := s.reg x }

/-- LD ST,Vx (R206). -/
def execLdSTVx (x : Reg) (s : State) : Outcome := complete (.timerWritten .sound) { s with st := s.reg x }

end Sys2Proof.Machine
end

