-- ==== Sys2Proof/Machine/Transactions.lean ====
section
/-! DEFINITION. The transactions of R250 and which of them comes next. -/

namespace Sys2Proof.Machine

/-- An instruction under parameters (R6): the shifts and the draw take theirs, and no other instruction depends on one. At this
machine's own it is `exec` (`execWith_machine` in Laws/Ops.lean), so a mend of a shift or a draw stands in `shiftRight`, `shiftLeft`
or `drawSprite`, which both call. -/
def execWith (p : Params) (i : Instr) (s : State) : Outcome :=
  match i with
  | .shrVxVy x y => shiftRight p.shiftSource x y s
  | .shlVxVy x y => shiftLeft p.shiftSource x y s
  | .drwVxVyN x y n => drawSprite p.drawEdgeMode x y n s
  | .cls | .ret | .jpNNN _ | .callNNN _ | .seVxNN _ _ | .sneVxNN _ _ | .seVxVy _ _ | .ldVxNN _ _ | .addVxNN _ _
  | .ldVxVy _ _ | .orVxVy _ _ | .andVxVy _ _ | .xorVxVy _ _ | .addVxVy _ _ | .subVxVy _ _ | .subnVxVy _ _
  | .sneVxVy _ _ | .ldINNN _ | .jpV0NNN _ | .rndVxNN _ _ | .skpVx _ | .sknpVx _ | .ldVxDT _ | .ldVxK _ | .ldDTVx _
  | .ldSTVx _ | .addIVx _ | .ldFVx _ | .bcdVx _ | .ldMemVx _ | .ldVxMem _ => exec i s

/-- The `step()` transaction (R100), its checks in the order of R235: the phase, the fetch range, the decode; then the
instruction's own rule. -/
def engineStep (p : Params) (s : State) : Outcome :=
  if s.phase ≠ .ready then reject s
  else
    match s.fetch with
    | none => raise .fetchOutOfRange s
    | some w =>
      match decodeWordWith p.admit8XY0 w with
      | none => raise .invalidInstruction s
      | some i => execWith p i s

/-- The largest image, 0xE00 bytes (R5, R261). -/
def imageCapacity : Nat := 0xE00

/-- `initialize(image, length)` (R260 to R262): every register as after reset, memory holding FONT, MEM_INIT_FILL and the image's
first 0xE00 bytes from 0x200 on. The host's own pending calls and its count of supplied values are no state of the engine and stay
(log entry 24). -/
def initializeMachine (p : Params) (image : List Byte) (s : State) : State :=
  { State.reset with
    mem := (Memory.ofBytes (initByte p) 0x1000).writeBytes 0x200 (image.take imageCapacity)
    host := s.host
    draws := s.draws }

/-- The state after reset under parameters: what `initialize` makes of an empty image (R31, R263). At this machine's own it is
`State.reset` (`resetWith_machine` in Laws/Ops.lean). -/
def State.resetWith (p : Params) : State := initializeMachine p [] State.reset

/-- `set_keys(mask)` (R251): accepted in every phase, changes nothing but `keys`. -/
def setKeys (mask : Word) (s : State) : State := State.returning { s with keys := mask } .nothing

/-- One transaction of the host (R250). -/
def transact (p : Params) : HostCall → State → Outcome
  | .initializeWith image, s => .next (initializeMachine p image s)
  | .step, s => engineStep p s
  | .supplyRandom byte, s => supplyRandom byte s
  | .supplyKey key, s => supplyKey key s
  | .supplyDelay ticks, s => supplyDelay ticks s
  | .setKeys mask, s => .next (setKeys mask s)
  | .readFramebuffer, s => .next (s.returning (.framebuffer s.fb))
  | .readKeys, s => .next (s.returning (.keyMask s.keys))

/-- The call the obedient host makes when no call is pending (R210, R271; log entry 4): `step` in Ready, and in a suspended phase
the matching supply, of a value under no law (R224; log entry 5). -/
def obedientCall (s : State) : HostCall :=
  match s.phase with
  | .ready => .step
  | .suspRandom => .supplyRandom (Config.suppliedByte s.draws).toNat
  | .suspKey => .supplyKey (Config.suppliedKey s.draws).val
  | .suspDelay => .supplyDelay (Config.suppliedTicks s.draws).toNat

/-- The state in which the obedient host's call is made: a supply uses up one free value. -/
def countDraw (s : State) : State :=
  match s.phase with
  | .ready => s
  | .suspRandom | .suspKey | .suspDelay => { s with draws := s.draws + 1 }

/-- The next transaction: the oldest pending call of the host, or else the obedient host's call. -/
def nextTransaction (p : Params) (s : State) : Outcome :=
  match s.host with
  | call :: rest => transact p call { s with host := rest }
  | [] => transact p (obedientCall s) (countDraw s)

/-- A state whose very next step fetches and runs the word `w` (log entry 22): the word stands at `pc`, the engine is Ready and no
host call is pending. Where `pc` is above 0xFFE, no word can be fetched there, so `pc` is the entry point 0x200. -/
def placeWord (w : Word) (s : State) : State :=
  let a : Word := if s.pc.toNat ≤ 0xFFE then s.pc else 0x0200
  { s with mem := s.mem.writeWord a.toNat w, pc := a, phase := .ready, host := [] }

end Sys2Proof.Machine
end

