-- ==== Sys2Proof/Machine/Step.lean ====
section
/-! DEFINITION. One step of the model: the next transaction (R12, R58: totally ordered, never two at once). -/

namespace Sys2Proof.Machine

/-- One step under parameters: the next transaction. "The model takes these as arguments of the step relation" (R6). -/
def stepWith (p : Params) (s : State) : Host.Outcome State Fault Refusal := nextTransaction p s

/-- One step of this machine. -/
def step (s : State) : Host.Outcome State Fault Refusal := stepWith machineParams s

/-- `s` with the table's word `w` placed where the next step fetches it. -/
def State.withFetchWord (s : State) (nbits w : Nat) : State := placeWord (tableWord nbits w) s

end Sys2Proof.Machine
end

