-- ==== Sys2Proof/Safety.lean ====
section
/-! DEFINITION. What counts as a safe run: the classes of the signals (R230), the invariants of the reachable states (R32, R223, and
the canonical form of memory), the error-free step, and the ends of a run (R275). -/

namespace Sys2Proof.Machine

/-- Whether a signal is of the class "error" (R230, S7 to S15). -/
def Signal.isError : Signal → Bool
  | .completed | .displayChanged | .timerWritten _ | .needsRandom | .needsKey | .needsDelay => false
  | .invalidInstruction | .stackUnderflow | .stackOverflow | .memoryOutOfBounds _ | .badKeyIndex | .badFontDigit
  | .fetchOutOfRange => true

/-- Whether a transaction returned an error signal. -/
def Returned.isError : Returned → Bool
  | .signal g => g.isError
  | .nothing | .rejected | .framebuffer _ | .keyMask _ => false

/-- In a suspended phase the word at `pc` can be fetched and is the matching deferred instruction: CXNN, FX0A or FX07 (R223). -/
def State.suspendedOk (s : State) : Bool :=
  match s.phase, s.fetch with
  | .ready, _ => true
  | .suspRandom, some w => w &&& 0xF000 == 0xC000
  | .suspKey, some w => w &&& 0xF0FF == 0xF00A
  | .suspDelay, some w => w &&& 0xF0FF == 0xF007
  | _, none => false

/-- The invariant of the reachable states: memory is in canonical form and a suspension stands on its instruction. -/
abbrev State.Inv (s : State) : Prop := s.mem.wf = true ∧ s.suspendedOk = true

/-- The ends of a run, as this model chooses and names them (R275, D26; log entry 30): all three of the natural ones. None stops the
machine, which has no halt: `step` goes on, and at an end it changes nothing. -/
inductive RunEnd where
  /-- the `step` call raises an error signal, and every later one repeats it (R237) -/
  | error
  /-- the word at `pc` is a jump to `pc` (R106) -/
  | jumpToSelf
  /-- a needs-* signal is unanswered; it is the end for as long as the host makes neither the matching supply nor `initialize` -/
  | suspension
  deriving DecidableEq, Repr

/-- Whether a `step` call raises an error signal here. -/
def State.stepRaises (p : Params) (s : State) : Bool :=
  match engineStep p s with
  | .next t => t.returned.isError
  | .fault _ | .refused _ => false

/-- Whether the word at `pc` is `1NNN` with `NNN` its own address. -/
def State.jumpsToSelf (s : State) : Bool := s.fetch == some (wordA 0x1 (s.pc.extractLsb' 0 12)) && decide (s.pc.toNat < 0x1000)

/-- The end a state stands at, if it stands at one. -/
def State.runEnd (p : Params) (s : State) : Option RunEnd :=
  match s.phase with
  | .suspRandom | .suspKey | .suspDelay => some .suspension
  | .ready => if s.stepRaises p then some .error else if s.jumpsToSelf then some .jumpToSelf else none

/-- A step that goes on and returns no error signal. -/
def State.SafeStep (s : State) : Prop := ∃ t, step s = .next t ∧ t.returned.isError = false

end Sys2Proof.Machine
end

