-- ==== Sys2Proof/Certificates/Slice0/Obligations.lean ====
section
/-! DEFINITION. The statements for the provers, in the order of OBLIGATIONS.json, and the tables of the spec they are stated with.
Results are written out as numbers (mod, div) or through the table the rule gives, not with the operations of the meanings. -/

open Sys2Proof Sys2Proof.Machine

namespace Sys2Proof.Spec

/-- The opcode map of R74: `(match, mask)`, row by row. -/
def rows : List (Word × Word) :=
  [(0x00E0, 0xFFFF), (0x00EE, 0xFFFF), (0x1000, 0xF000), (0x2000, 0xF000), (0x3000, 0xF000), (0x4000, 0xF000),
   (0x5000, 0xF00F), (0x6000, 0xF000), (0x7000, 0xF000), (0x8000, 0xF00F), (0x8001, 0xF00F), (0x8002, 0xF00F),
   (0x8003, 0xF00F), (0x8004, 0xF00F), (0x8005, 0xF00F), (0x8006, 0xF00F), (0x8007, 0xF00F), (0x800E, 0xF00F),
   (0x9000, 0xF00F), (0xA000, 0xF000), (0xB000, 0xF000), (0xC000, 0xF000), (0xD000, 0xF000), (0xE09E, 0xF0FF),
   (0xE0A1, 0xF0FF), (0xF007, 0xF0FF), (0xF00A, 0xF0FF), (0xF015, 0xF0FF), (0xF018, 0xF0FF), (0xF01E, 0xF0FF),
   (0xF029, 0xF0FF), (0xF033, 0xF0FF), (0xF055, 0xF0FF), (0xF065, 0xF0FF)]

/-- The row of R74 an instruction stands in. -/
def row : Instr → Word × Word
  | .cls => (0x00E0, 0xFFFF)
  | .ret => (0x00EE, 0xFFFF)
  | .jpNNN _ => (0x1000, 0xF000)
  | .callNNN _ => (0x2000, 0xF000)
  | .seVxNN _ _ => (0x3000, 0xF000)
  | .sneVxNN _ _ => (0x4000, 0xF000)
  | .seVxVy _ _ => (0x5000, 0xF00F)
  | .ldVxNN _ _ => (0x6000, 0xF000)
  | .addVxNN _ _ => (0x7000, 0xF000)
  | .ldVxVy _ _ => (0x8000, 0xF00F)
  | .orVxVy _ _ => (0x8001, 0xF00F)
  | .andVxVy _ _ => (0x8002, 0xF00F)
  | .xorVxVy _ _ => (0x8003, 0xF00F)
  | .addVxVy _ _ => (0x8004, 0xF00F)
  | .subVxVy _ _ => (0x8005, 0xF00F)
  | .shrVxVy _ _ => (0x8006, 0xF00F)
  | .subnVxVy _ _ => (0x8007, 0xF00F)
  | .shlVxVy _ _ => (0x800E, 0xF00F)
  | .sneVxVy _ _ => (0x9000, 0xF00F)
  | .ldINNN _ => (0xA000, 0xF000)
  | .jpV0NNN _ => (0xB000, 0xF000)
  | .rndVxNN _ _ => (0xC000, 0xF000)
  | .drwVxVyN _ _ _ => (0xD000, 0xF000)
  | .skpVx _ => (0xE09E, 0xF0FF)
  | .sknpVx _ => (0xE0A1, 0xF0FF)
  | .ldVxDT _ => (0xF007, 0xF0FF)
  | .ldVxK _ => (0xF00A, 0xF0FF)
  | .ldDTVx _ => (0xF015, 0xF0FF)
  | .ldSTVx _ => (0xF018, 0xF0FF)
  | .addIVx _ => (0xF01E, 0xF0FF)
  | .ldFVx _ => (0xF029, 0xF0FF)
  | .bcdVx _ => (0xF033, 0xF0FF)
  | .ldMemVx _ => (0xF055, 0xF0FF)
  | .ldVxMem _ => (0xF065, 0xF0FF)

/-- `w and mask = match` (R74). -/
def matchesRow (w : Word) (r : Word × Word) : Bool := w &&& r.2 == r.1

/-- The operand check of an instruction: the error signal it raises, by the table of R231. -/
def operandError (i : Instr) (s : State) : Option Signal :=
  match i with
  | .ret => if s.sp.val = 0 then some .stackUnderflow else none
  | .callNNN _ => if s.sp.val = 16 then some .stackOverflow else none
  | .drwVxVyN _ _ n => if s.I.toNat + n.toNat > 0x1000 then some (.memoryOutOfBounds .spriteRead) else none
  | .bcdVx _ => if s.I.toNat + 2 > 0xFFF then some (.memoryOutOfBounds .bcdWrite) else none
  | .ldMemVx x | .ldVxMem x => if s.I.toNat + x.val > 0xFFF then some (.memoryOutOfBounds .registerTransfer) else none
  | .skpVx x | .sknpVx x => if (s.reg x).toNat > 15 then some .badKeyIndex else none
  | .ldFVx x => if (s.reg x).toNat > 15 then some .badFontDigit else none
  | _ => none

/-- The signal an instruction returns where it raises none (R103 and, for the suspensions, R212 to R214). -/
def goodSignal : Instr → Signal
  | .cls | .drwVxVyN _ _ _ => .displayChanged
  | .ldDTVx _ => .timerWritten .delay
  | .ldSTVx _ => .timerWritten .sound
  | .rndVxNN _ _ => .needsRandom
  | .ldVxK _ => .needsKey
  | .ldVxDT _ => .needsDelay
  | _ => .completed

/-- Whether an instruction can write a register at `step`: the columns x[X], x[0] and x[15] of R35's table. -/
def writesReg (i : Instr) (r : Reg) : Bool :=
  match i with
  | .ldVxNN x _ | .addVxNN x _ | .ldVxVy x _ | .orVxVy x _ | .andVxVy x _ | .xorVxVy x _ => r == x
  | .addVxVy x _ | .subVxVy x _ | .shrVxVy x _ | .subnVxVy x _ | .shlVxVy x _ => r == x || r == 15
  | .drwVxVyN _ _ _ => r == 15
  | .ldVxMem x => decide (r.val ≤ x.val)
  | _ => false

/-- The `pc` after an instruction that raises nothing (the table of R22). -/
def nextPc (i : Instr) (s : State) : Nat :=
  match i with
  | .ret => (s.stack.toArray.getD (s.sp.val - 1) 0).toNat + 2
  | .jpNNN nnn | .callNNN nnn => nnn.toNat
  | .jpV0NNN nnn => nnn.toNat + (s.reg 0).toNat
  | .seVxNN x nn => s.pc.toNat + if s.reg x = nn then 4 else 2
  | .sneVxNN x nn => s.pc.toNat + if s.reg x = nn then 2 else 4
  | .seVxVy x y => s.pc.toNat + if s.reg x = s.reg y then 4 else 2
  | .sneVxVy x y => s.pc.toNat + if s.reg x = s.reg y then 2 else 4
  | .skpVx x => s.pc.toNat + if s.keys.toNat.testBit (s.reg x).toNat then 4 else 2
  | .sknpVx x => s.pc.toNat + if s.keys.toNat.testBit (s.reg x).toNat then 2 else 4
  | .rndVxNN _ _ | .ldVxK _ | .ldVxDT _ => s.pc.toNat
  | _ => s.pc.toNat + 2

/-- Where a sprite pixel aimed at `(tx, ty)` lands (R183). -/
def lands (mode : EdgeMode) (tx ty : Nat) (px : Fin 64) (py : Fin 32) : Prop :=
  match mode with
  | .clip => tx = px.val ∧ ty = py.val
  | .wrap => tx % 64 = px.val ∧ ty % 32 = py.val

/-- The mask M of R186: the pixel is the landing place of a set bit of the sprite DRW Vx,Vy,N draws in `s` (R182). -/
def inMask (mode : EdgeMode) (x y : Reg) (n : Nibble) (s : State) (px : Fin 64) (py : Fin 32) : Prop :=
  ∃ r c : Nat, r < n.toNat ∧ c < 8 ∧ (s.mem.read (s.I.toNat + r)).getLsbD (7 - c) = true ∧
    lands mode ((s.reg x).toNat + c) ((s.reg y).toNat + r) px py

/-- Instructions executed one after another. -/
def execAll : List Instr → State → Host.Outcome State Fault Refusal
  | [], s => .next s
  | i :: is, s =>
    match exec i s with
    | .next t => execAll is t
    | .fault f => .fault f
    | .refused r => .refused r

end Sys2Proof.Spec

open Sys2Proof.Spec

/-! ## Encoding -/

/-- Words written out bit by bit from R74 decode to the instructions they stand for, one or more of every family.
The numbers of R74 are the spec's general knowledge (log entry 12). -/
def Obligations.SampleWordsDecode : Prop :=
  decodeWord 0b0000000011100000 = some .cls ∧ decodeWord 0b0000000011101110 = some .ret ∧
  decodeWord 0b0001001000001000 = some (.jpNNN 0x208) ∧ decodeWord 0b0011001100101010 = some (.seVxNN 3 0x2A) ∧
  decodeWord 0b1000000100100100 = some (.addVxVy 1 2) ∧ decodeWord 0b1000001100001110 = some (.shlVxVy 3 0) ∧
  decodeWord 0b1010001011110000 = some (.ldINNN 0x2F0) ∧ decodeWord 0b1111001001010101 = some (.ldMemVx 2) ∧
  decodeWord 0b1101000000010010 = some (.drwVxVyN 0 1 2) ∧ decodeWord 0b1110000110011110 = some (.skpVx 1) ∧
  decodeWord 0b1111000100010101 = some (.ldDTVx 1) ∧ decodeWord 0b1100000000001111 = some (.rndVxNN 0 0x0F) ∧
  decodeWord 0x0000 = none ∧ decodeWord 0x5121 = none ∧ decodeWord 0x9121 = none ∧ decodeWord 0x812F = none ∧
  decodeWord 0xE0A2 = none ∧ decodeWord 0xF0FF = none

/-- Decoding the bytes of any well-formed instruction gives it back and leaves the bytes after it, whatever ADMIT_8XY0 is. -/
def Obligations.DecodeOfEncodedInstruction : Prop :=
  (∀ (admits : Bool) (i : Instr), i.wellFormedWith admits = true → decodeWordWith admits (encode i) = some i) ∧
  (∀ (i : Instr) (rest : List Byte), i.wellFormed = true → decode (encodeBytes i ++ rest) = .ok (i, rest))

/-- A word that decodes is the encoding of what it decodes to, and that is well-formed: no two words are one instruction. -/
def Obligations.EncodeOfDecodedWord : Prop :=
  ∀ (admits : Bool) (w : Word) (i : Instr), decodeWordWith admits w = some i → encode i = w ∧ i.wellFormedWith admits = true

/-- R75: no word matches two rows of R74; a word that matches a row is that instruction; any other word is invalid. With
ADMIT_8XY0 false exactly the words 8XY0 are invalid besides (R76).
The disjointness is the spec's own derivation, the numbers its general knowledge (log entry 12), 5XYN its decision D4. -/
def Obligations.OpcodeMapIsExact : Prop :=
  (∀ w : Word, (rows.filter (matchesRow w)).length ≤ 1) ∧
  (∀ (w : Word) (i : Instr), decodeWordWith true w = some i → row i ∈ rows ∧ matchesRow w (row i) = true) ∧
  (∀ (w : Word) (r : Word × Word), r ∈ rows → matchesRow w r = true → ∃ i, decodeWordWith true w = some i ∧ row i = r) ∧
  (∀ w : Word, decodeWordWith false w = if matchesRow w (0x8000, 0xF00F) then none else decodeWordWith true w)

/-! ## The step -/

/-- A step runs the decoded instruction: with the two bytes at `pc` decoding to `i` and the engine Ready, the step is `exec i` of
the same state where no host call is pending, and of the state less that call where the host's next call is `step`.
Which call comes next with none pending is the model's choice (log entry 4). -/
def Obligations.StepRunsDecodedInstruction : Prop :=
  ∀ (s : State) (i : Instr), s.phase = .ready → s.pc.toNat ≤ 0xFFE →
    decode [s.mem.read s.pc.toNat, s.mem.read (s.pc.toNat + 1)] = .ok (i, []) →
    (s.host = [] → step s = exec i s) ∧
    (∀ rest, s.host = .step :: rest → step s = exec i { s with host := rest })

/-- The checks before execution, in R235's order: a `step` call in a suspended phase is Rejected whatever `pc` is; then a fetch out
of range; then a word that is no instruction.
R235 is the spec's derivation, Rejected its decision D18 (log entry 19); a signal is a next state by log entry 1. -/
def Obligations.StepChecksBeforeExecution : Prop :=
  ∀ (s : State) (rest : List HostCall), s.host = .step :: rest →
    (s.phase ≠ .ready → step s = .next { s with host := rest, returned := .rejected }) ∧
    (s.phase = .ready → s.pc.toNat > 0xFFE →
      step s = .next { s with host := rest, returned := .signal .fetchOutOfRange }) ∧
    (s.phase = .ready → s.pc.toNat ≤ 0xFFE →
      decodeWord (wordOfBytes (s.mem.read s.pc.toNat) (s.mem.read (s.pc.toNat + 1))) = none →
      step s = .next { s with host := rest, returned := .signal .invalidInstruction })

/-- A word placed for the host's next step is what that step runs (memory in canonical form).
The model's own interface (log entry 22). -/
def Obligations.PlacedWordIsRun : Prop :=
  ∀ (s : State) (w : Nat) (i : Instr), s.mem.wf = true → decodeTableWord 16 w = some i →
    step (s.withFetchWord 16 w) = exec i (s.withFetchWord 16 w)

/-! ## Control transfer -/

/-- CLS (R180). -/
def Obligations.ClsUnsetsEveryPixel : Prop :=
  decodeWord 0x00E0 = some .cls ∧
  ∀ s : State, ∃ fb : Framebuffer,
    exec .cls s = .next { s with fb := fb, pc := s.pc + 2, returned := .signal .displayChanged } ∧
    ∀ px py, fb.pixel px py = false

/-- RET (R105). -/
def Obligations.RetPopsTheStack : Prop :=
  decodeWord 0x00EE = some .ret ∧
  ∀ s : State,
    (s.sp = 0 → exec .ret s = .next { s with returned := .signal .stackUnderflow }) ∧
    (∀ k : Fin 16, s.sp = k.succ →
      exec .ret s = .next { s with sp := k.castSucc, pc := s.stack[k] + 2, returned := .signal .completed })

/-- JP NNN (R106). -/
def Obligations.JpWritesPc : Prop :=
  ∀ (nnn : Addr) (s : State),
    decodeWord (wordA 0x1 nnn) = some (.jpNNN nnn) ∧
    exec (.jpNNN nnn) s = .next { s with pc := BitVec.ofNat 16 nnn.toNat, returned := .signal .completed }

/-- CALL NNN (R107). -/
def Obligations.CallPushesItsOwnAddress : Prop :=
  ∀ (nnn : Addr) (s : State),
    decodeWord (wordA 0x2 nnn) = some (.callNNN nnn) ∧
    (s.sp = 16 → exec (.callNNN nnn) s = .next { s with returned := .signal .stackOverflow }) ∧
    (∀ k : Fin 16, s.sp = k.castSucc →
      exec (.callNNN nnn) s = .next
        { s with
          stack := s.stack.set k.val s.pc
          sp := k.succ
          pc := BitVec.ofNat 16 nnn.toNat
          returned := .signal .completed })

/-- SE Vx,NN and SNE Vx,NN (R108, R109). -/
def Obligations.ImmediateSkips : Prop :=
  ∀ (x : Reg) (nn : Byte) (s : State),
    decodeWord (wordXI 0x3 x nn) = some (.seVxNN x nn) ∧ decodeWord (wordXI 0x4 x nn) = some (.sneVxNN x nn) ∧
    exec (.seVxNN x nn) s =
      .next { s with pc := if s.reg x = nn then s.pc + 4 else s.pc + 2, returned := .signal .completed } ∧
    exec (.sneVxNN x nn) s =
      .next { s with pc := if s.reg x ≠ nn then s.pc + 4 else s.pc + 2, returned := .signal .completed }

/-- SE Vx,Vy and SNE Vx,Vy (R110, R111), and the words 5XYN and 9XYN with N not 0, which are invalid.
That 5XYN is invalid is the spec's decision D4 (log entry 12). -/
def Obligations.RegisterSkips : Prop :=
  ∀ (x y : Reg) (s : State),
    decodeWord (wordXY 0x5 x y 0x0) = some (.seVxVy x y) ∧ decodeWord (wordXY 0x9 x y 0x0) = some (.sneVxVy x y) ∧
    (∀ n : Nibble, n ≠ 0 → decodeWord (wordXY 0x5 x y n) = none ∧ decodeWord (wordXY 0x9 x y n) = none) ∧
    exec (.seVxVy x y) s =
      .next { s with pc := if s.reg x = s.reg y then s.pc + 4 else s.pc + 2, returned := .signal .completed } ∧
    exec (.sneVxVy x y) s =
      .next { s with pc := if s.reg x ≠ s.reg y then s.pc + 4 else s.pc + 2, returned := .signal .completed }

/-- JP V0,NNN (R113): the sum neither wraps at 16 bits nor is reduced modulo 4096. -/
def Obligations.JpV0AddsRegisterZero : Prop :=
  ∀ (nnn : Addr) (s : State),
    decodeWord (wordA 0xB nnn) = some (.jpV0NNN nnn) ∧
    ∃ t : Word, t.toNat = nnn.toNat + (s.reg 0).toNat ∧
      exec (.jpV0NNN nnn) s = .next { s with pc := t, returned := .signal .completed }

/-! ## Loads and the ALU -/

/-- LD Vx,NN and ADD Vx,NN (R130, R131): the second wraps modulo 256 and writes no flag. -/
def Obligations.ImmediateLoadAndAdd : Prop :=
  ∀ (x : Reg) (nn : Byte) (s : State),
    decodeWord (wordXI 0x6 x nn) = some (.ldVxNN x nn) ∧ decodeWord (wordXI 0x7 x nn) = some (.addVxNN x nn) ∧
    exec (.ldVxNN x nn) s =
      .next { s with x := s.x.set x.val nn, pc := s.pc + 2, returned := .signal .completed } ∧
    exec (.addVxNN x nn) s = .next
      { s with
        x := s.x.set x.val (BitVec.ofNat 8 (((s.reg x).toNat + nn.toNat) % 256))
        pc := s.pc + 2
        returned := .signal .completed }

/-- LD Vx,Vy (R133), an instruction exactly where ADMIT_8XY0 is true.
That it exists is the spec's open decision D3 (log entry 9). -/
def Obligations.RegisterMove : Prop :=
  ∀ (x y : Reg) (s : State),
    decodeWordWith true (wordXY 0x8 x y 0x0) = some (.ldVxVy x y) ∧ decodeWordWith false (wordXY 0x8 x y 0x0) = none ∧
    exec (.ldVxVy x y) s =
      .next { s with x := s.x.set x.val (s.reg y), pc := s.pc + 2, returned := .signal .completed }

/-- OR, AND, XOR Vx,Vy (R134, R136, R138): no flag is written.
That none is written is the spec's decision D5 (log entry 14). -/
def Obligations.LogicOperations : Prop :=
  ∀ (x y : Reg) (s : State),
    decodeWord (wordXY 0x8 x y 0x1) = some (.orVxVy x y) ∧ decodeWord (wordXY 0x8 x y 0x2) = some (.andVxVy x y) ∧
    decodeWord (wordXY 0x8 x y 0x3) = some (.xorVxVy x y) ∧
    exec (.orVxVy x y) s = .next
      { s with x := s.x.set x.val (s.reg x ||| s.reg y), pc := s.pc + 2, returned := .signal .completed } ∧
    exec (.andVxVy x y) s = .next
      { s with x := s.x.set x.val (s.reg x &&& s.reg y), pc := s.pc + 2, returned := .signal .completed } ∧
    exec (.xorVxVy x y) s = .next
      { s with x := s.x.set x.val (s.reg x ^^^ s.reg y), pc := s.pc + 2, returned := .signal .completed }

/-- ADD Vx,Vy (R140): the result first, the flag second.
With X = 15 the order of the two writes is the spec's choice D7 (log entry 13). -/
def Obligations.AddWithCarryFlag : Prop :=
  ∀ (x y : Reg) (s : State),
    decodeWord (wordXY 0x8 x y 0x4) = some (.addVxVy x y) ∧
    exec (.addVxVy x y) s = .next
      { s with
        x := (s.x.set x.val (BitVec.ofNat 8 (((s.reg x).toNat + (s.reg y).toNat) % 256))).set 15
          (if (s.reg x).toNat + (s.reg y).toNat > 255 then 1 else 0)
        pc := s.pc + 2
        returned := .signal .completed }

/-- SUB and SUBN Vx,Vy (R142, R146): the flag is 1 exactly when no borrow was needed, on the values before the write.
With X = 15 the order of the two writes is the spec's choice D7 (log entry 13); the flag's convention is marked D8. -/
def Obligations.SubtractWithNoBorrowFlag : Prop :=
  ∀ (x y : Reg) (s : State),
    decodeWord (wordXY 0x8 x y 0x5) = some (.subVxVy x y) ∧ decodeWord (wordXY 0x8 x y 0x7) = some (.subnVxVy x y) ∧
    exec (.subVxVy x y) s = .next
      { s with
        x := (s.x.set x.val (BitVec.ofNat 8 (((s.reg x).toNat + 256 - (s.reg y).toNat) % 256))).set 15
          (if (s.reg x).toNat ≥ (s.reg y).toNat then 1 else 0)
        pc := s.pc + 2
        returned := .signal .completed } ∧
    exec (.subnVxVy x y) s = .next
      { s with
        x := (s.x.set x.val (BitVec.ofNat 8 (((s.reg y).toNat + 256 - (s.reg x).toNat) % 256))).set 15
          (if (s.reg y).toNat ≥ (s.reg x).toNat then 1 else 0)
        pc := s.pc + 2
        returned := .signal .completed }

/-- SHR Vx,Vy (R144) on this machine and under each value of SHIFT_SOURCE.
The result's register is the spec's decision D6 (log entry 8). -/
def Obligations.ShiftRightByOne : Prop :=
  ∀ (x y : Reg) (s : State),
    decodeWord (wordXY 0x8 x y 0x6) = some (.shrVxVy x y) ∧
    (∀ src : ShiftSource, ∀ v : Byte, v = (if src = .x then s.reg x else s.reg y) →
      shiftRight src x y s = .next
        { s with
          x := (s.x.set x.val (BitVec.ofNat 8 (v.toNat / 2))).set 15 (BitVec.ofNat 8 (v.toNat % 2))
          pc := s.pc + 2
          returned := .signal .completed }) ∧
    (∀ v : Byte, v = (if shiftSource = .x then s.reg x else s.reg y) →
      exec (.shrVxVy x y) s = .next
        { s with
          x := (s.x.set x.val (BitVec.ofNat 8 (v.toNat / 2))).set 15 (BitVec.ofNat 8 (v.toNat % 2))
          pc := s.pc + 2
          returned := .signal .completed })

/-- SHL Vx,Vy (R148) on this machine and under each value of SHIFT_SOURCE.
The result's register is the spec's decision D6 (log entry 8). -/
def Obligations.ShiftLeftByOne : Prop :=
  ∀ (x y : Reg) (s : State),
    decodeWord (wordXY 0x8 x y 0xE) = some (.shlVxVy x y) ∧
    (∀ src : ShiftSource, ∀ v : Byte, v = (if src = .x then s.reg x else s.reg y) →
      shiftLeft src x y s = .next
        { s with
          x := (s.x.set x.val (BitVec.ofNat 8 (v.toNat * 2 % 256))).set 15 (BitVec.ofNat 8 (v.toNat / 128))
          pc := s.pc + 2
          returned := .signal .completed }) ∧
    (∀ v : Byte, v = (if shiftSource = .x then s.reg x else s.reg y) →
      exec (.shlVxVy x y) s = .next
        { s with
          x := (s.x.set x.val (BitVec.ofNat 8 (v.toNat * 2 % 256))).set 15 (BitVec.ofNat 8 (v.toNat / 128))
          pc := s.pc + 2
          returned := .signal .completed })

/-- R150: with X = 15 the flag is what remains, 0 or 1, and the result is lost; the operands are the values before.
The order of the writes is the spec's choice D7 (log entry 13). -/
def Obligations.FlagWinsOverResult : Prop :=
  ∀ (y : Reg) (s : State),
    (∃ t, exec (.addVxVy 15 y) s = .next t ∧
      (t.reg 15).toNat = ((s.reg 15).toNat + (s.reg y).toNat) / 256) ∧
    (∃ t, exec (.subVxVy 15 y) s = .next t ∧ t.reg 15 = if (s.reg y).toNat ≤ (s.reg 15).toNat then 1 else 0) ∧
    (∃ t, exec (.subnVxVy 15 y) s = .next t ∧ t.reg 15 = if (s.reg 15).toNat ≤ (s.reg y).toNat then 1 else 0) ∧
    (∀ src v, v = (if src = ShiftSource.x then s.reg 15 else s.reg y) →
      (∃ t, shiftRight src 15 y s = .next t ∧ (t.reg 15).toNat = v.toNat % 2) ∧
      (∃ t, shiftLeft src 15 y s = .next t ∧ (t.reg 15).toNat = v.toNat / 128)) ∧
    (∀ x : Reg, x ≠ 15 → ∃ t, exec (.addVxVy x 15) s = .next t ∧
      (t.reg x).toNat = ((s.reg x).toNat + (s.reg 15).toNat) % 256)

/-- The arithmetic laws R152 lists, each with X not 15.
The spec lists them as derived. -/
def Obligations.ArithmeticLawsOfTheFlag : Prop :=
  ∀ (x y : Reg) (s t : State), x ≠ 15 →
    (exec (.addVxVy x y) s = .next t →
      (t.reg x).toNat + 256 * (t.reg 15).toNat = (s.reg x).toNat + (s.reg y).toNat) ∧
    (exec (.subVxVy x y) s = .next t →
      ((t.reg x).toNat : Int) = (s.reg x).toNat - (s.reg y).toNat + 256 * (1 - (t.reg 15).toNat)) ∧
    (exec (.subnVxVy x y) s = .next t →
      ((t.reg x).toNat : Int) = (s.reg y).toNat - (s.reg x).toNat + 256 * (1 - (t.reg 15).toNat)) ∧
    (∀ src v, v = (if src = ShiftSource.x then s.reg x else s.reg y) →
      (shiftRight src x y s = .next t → 2 * (t.reg x).toNat + (t.reg 15).toNat = v.toNat) ∧
      (shiftLeft src x y s = .next t → (t.reg x).toNat + 256 * (t.reg 15).toNat = 2 * v.toNat))

/-! ## The index register and memory -/

/-- LD I,NNN and ADD I,Vx (R160, R162): the sum wraps modulo 2^16 only, and no flag is written.
The wrap is the spec's decision D12 (log entry 15). -/
def Obligations.IndexLoadAndAdd : Prop :=
  ∀ (nnn : Addr) (x : Reg) (s : State),
    decodeWord (wordA 0xA nnn) = some (.ldINNN nnn) ∧ decodeWord (wordXI 0xF x 0x1E) = some (.addIVx x) ∧
    exec (.ldINNN nnn) s =
      .next { s with I := BitVec.ofNat 16 nnn.toNat, pc := s.pc + 2, returned := .signal .completed } ∧
    exec (.addIVx x) s = .next
      { s with
        I := BitVec.ofNat 16 ((s.I.toNat + (s.reg x).toNat) % 2 ^ 16)
        pc := s.pc + 2
        returned := .signal .completed }

/-- LD F,Vx (R164): `5 * x[X]`, or BadFontDigit above 15 with nothing changed. -/
def Obligations.FontAddress : Prop :=
  ∀ (x : Reg) (s : State),
    decodeWord (wordXI 0xF x 0x29) = some (.ldFVx x) ∧
    ((s.reg x).toNat ≤ 15 → exec (.ldFVx x) s = .next
      { s with I := BitVec.ofNat 16 (5 * (s.reg x).toNat), pc := s.pc + 2, returned := .signal .completed }) ∧
    ((s.reg x).toNat > 15 → exec (.ldFVx x) s = .next { s with returned := .signal .badFontDigit })

/-- BCD Vx (R166): the three digits at I, I+1, I+2, every other byte as it was; or nothing at all. -/
def Obligations.BcdStoresThreeDigits : Prop :=
  ∀ (x : Reg) (s : State), s.mem.wf = true →
    decodeWord (wordXI 0xF x 0x33) = some (.bcdVx x) ∧
    (s.I.toNat + 2 ≤ 0xFFF → ∃ m : Memory,
      exec (.bcdVx x) s = .next { s with mem := m, pc := s.pc + 2, returned := .signal .completed } ∧
      (m.read s.I.toNat).toNat = (s.reg x).toNat / 100 ∧
      (m.read (s.I.toNat + 1)).toNat = (s.reg x).toNat / 10 % 10 ∧
      (m.read (s.I.toNat + 2)).toNat = (s.reg x).toNat % 10 ∧
      ∀ a : Nat, ¬(s.I.toNat ≤ a ∧ a ≤ s.I.toNat + 2) → m.read a = s.mem.read a) ∧
    (s.I.toNat + 2 > 0xFFF →
      exec (.bcdVx x) s = .next { s with returned := .signal (.memoryOutOfBounds .bcdWrite) })

/-- LD [I],Vx (R168): `x[k]` at `I + k` for k up to X, every other byte as it was, I unchanged; or nothing at all. -/
def Obligations.RegisterDump : Prop :=
  ∀ (x : Reg) (s : State), s.mem.wf = true →
    decodeWord (wordXI 0xF x 0x55) = some (.ldMemVx x) ∧
    (s.I.toNat + x.val ≤ 0xFFF → ∃ m : Memory,
      exec (.ldMemVx x) s = .next { s with mem := m, pc := s.pc + 2, returned := .signal .completed } ∧
      (∀ k : Reg, k ≤ x → m.read (s.I.toNat + k.val) = s.reg k) ∧
      ∀ a : Nat, ¬(s.I.toNat ≤ a ∧ a ≤ s.I.toNat + x.val) → m.read a = s.mem.read a) ∧
    (s.I.toNat + x.val > 0xFFF →
      exec (.ldMemVx x) s = .next { s with returned := .signal (.memoryOutOfBounds .registerTransfer) })

/-- LD Vx,[I] (R170): the byte at `I + k` into `x[k]` for k up to X, the other registers as they were; or nothing at all. -/
def Obligations.RegisterLoad : Prop :=
  ∀ (x : Reg) (s : State),
    decodeWord (wordXI 0xF x 0x65) = some (.ldVxMem x) ∧
    (s.I.toNat + x.val ≤ 0xFFF → ∃ v : Vector Byte 16,
      exec (.ldVxMem x) s = .next { s with x := v, pc := s.pc + 2, returned := .signal .completed } ∧
      ∀ k : Reg, v[k] = if k ≤ x then s.mem.read (s.I.toNat + k.val) else s.reg k) ∧
    (s.I.toNat + x.val > 0xFFF →
      exec (.ldVxMem x) s = .next { s with returned := .signal (.memoryOutOfBounds .registerTransfer) })

/-- Fetch coherence (R60): the two bytes a register dump stores over the next instruction are the next word fetched, the byte of
`x[0]` its high byte.
R60 is the spec's derivation. -/
def Obligations.StoreIsSeenByNextFetch : Prop :=
  ∀ (x : Reg) (s t : State), s.mem.wf = true → s.pc.toNat + 2 = s.I.toNat → 1 ≤ x.val → s.I.toNat + x.val ≤ 0xFFF →
    exec (.ldMemVx x) s = .next t → t.fetch = some (s.reg 0 ++ s.reg 1)

/-! ## The display -/

/-- DRW Vx,Vy,N (R184), with the mask M of R186(a), on this machine and under each edge mode: the changed pixels are exactly those
of M, the flag is 1 exactly where a pixel of M was set, and the bounds check comes before everything.
R186 is the spec's derivation; the check's form is D11 (log entry 16), the signal D10 (log entry 18), the axes
log entry 26, and with X or Y = 15 the coordinates are the values before the flag is written by D7 (log entry 13). -/
def Obligations.DrawIsXorWithMask : Prop :=
  ∀ (x y : Reg) (n : Nibble) (s : State),
    decodeWord (wordXY 0xD x y n) = some (.drwVxVyN x y n) ∧
    exec (.drwVxVyN x y n) s = drawSprite drawEdgeMode x y n s ∧
    ∀ mode : EdgeMode,
      (s.I.toNat + n.toNat ≤ 0x1000 → ∃ (fb : Framebuffer) (hit : Bool),
        drawSprite mode x y n s = .next
          { s with
            fb := fb
            x := s.x.set 15 (if hit then 1 else 0)
            pc := s.pc + 2
            returned := .signal .displayChanged } ∧
        (∀ px py, fb.pixel px py ≠ s.fb.pixel px py ↔ inMask mode x y n s px py) ∧
        (hit = true ↔ ∃ px py, inMask mode x y n s px py ∧ s.fb.pixel px py = true)) ∧
      (s.I.toNat + n.toNat > 0x1000 →
        drawSprite mode x y n s = .next { s with returned := .signal (.memoryOutOfBounds .spriteRead) })

/-- DRW answers a next state with its own effect wherever its sprite is in memory: only `fb`, `x[15]`, `pc` change.
The check's form is D11 (log entry 16); with X or Y = 15, D7 (log entry 13). -/
def Obligations.DrawCompletes : Prop :=
  ∀ (x y : Reg) (n : Nibble) (s : State), s.I.toNat + n.toNat ≤ 0x1000 →
    ∃ (fb : Framebuffer) (hit : Bool), exec (.drwVxVyN x y n) s = .next
      { s with
        fb := fb
        x := s.x.set 15 (if hit then 1 else 0)
        pc := s.pc + 2
        returned := .signal .displayChanged } ∧
      (hit = true ↔ ∃ px py, s.fb.pixel px py = true ∧ fb.pixel px py = false)

/-- R186(b): drawing the same sprite at the same place twice restores the framebuffer, and after the second draw the flag is 1
exactly when some pixel of M was unset before the first. The coordinate registers are not `x[15]`, which the first draw writes.
R186 is the spec's derivation. -/
def Obligations.DrawTwiceRestores : Prop :=
  ∀ (mode : EdgeMode) (x y : Reg) (n : Nibble) (s t u : State), x ≠ 15 → y ≠ 15 → s.I.toNat + n.toNat ≤ 0x1000 →
    drawSprite mode x y n s = .next t → drawSprite mode x y n t = .next u →
    u.fb = s.fb ∧ (u.reg 15 = 1 ∨ u.reg 15 = 0) ∧
    (u.reg 15 = 1 ↔ ∃ px py, inMask mode x y n s px py ∧ s.fb.pixel px py = false)

/-- R186(c) and R183: an empty mask leaves the framebuffer as it was and clears the flag; in clip mode the mask is empty where the
origin is off the screen, and in both modes where N is 0.
R186 is the spec's derivation; literal clip is D9 (log entry 16). -/
def Obligations.EmptyMaskDrawsNothing : Prop :=
  ∀ (mode : EdgeMode) (x y : Reg) (n : Nibble) (s : State), s.I.toNat + n.toNat ≤ 0x1000 →
    ((∀ px py, ¬inMask mode x y n s px py) →
      drawSprite mode x y n s = .next
        { s with x := s.x.set 15 0, pc := s.pc + 2, returned := .signal .displayChanged }) ∧
    (n = 0 → ∀ px py, ¬inMask mode x y n s px py) ∧
    (mode = .clip → ((s.reg x).toNat ≥ 64 ∨ (s.reg y).toNat ≥ 32) → ∀ px py, ¬inMask mode x y n s px py)

/-- A sprite wholly on the screen is drawn alike in both edge modes (U1).
R272(g) is the spec's derivation. -/
def Obligations.EdgeModesAgreeOnScreen : Prop :=
  ∀ (x y : Reg) (n : Nibble) (s : State), (s.reg x).toNat ≤ 56 → (s.reg y).toNat + n.toNat ≤ 32 →
    drawSprite .clip x y n s = drawSprite .wrap x y n s

/-! ## The keypad and the timers -/

/-- SKP Vx and SKNP Vx (R200, R202): bit `x[X]` of `keys`, or BadKeyIndex above 15 with nothing changed. -/
def Obligations.KeySkips : Prop :=
  ∀ (x : Reg) (s : State),
    decodeWord (wordXI 0xE x 0x9E) = some (.skpVx x) ∧ decodeWord (wordXI 0xE x 0xA1) = some (.sknpVx x) ∧
    ((s.reg x).toNat ≤ 15 →
      exec (.skpVx x) s = .next
        { s with
          pc := if s.keys.toNat / 2 ^ (s.reg x).toNat % 2 = 1 then s.pc + 4 else s.pc + 2
          returned := .signal .completed } ∧
      exec (.sknpVx x) s = .next
        { s with
          pc := if s.keys.toNat / 2 ^ (s.reg x).toNat % 2 = 0 then s.pc + 4 else s.pc + 2
          returned := .signal .completed }) ∧
    ((s.reg x).toNat > 15 →
      exec (.skpVx x) s = .next { s with returned := .signal .badKeyIndex } ∧
      exec (.sknpVx x) s = .next { s with returned := .signal .badKeyIndex })

/-- LD DT,Vx and LD ST,Vx (R204, R206). -/
def Obligations.TimerWrites : Prop :=
  ∀ (x : Reg) (s : State),
    decodeWord (wordXI 0xF x 0x15) = some (.ldDTVx x) ∧ decodeWord (wordXI 0xF x 0x18) = some (.ldSTVx x) ∧
    exec (.ldDTVx x) s =
      .next { s with dt := s.reg x, pc := s.pc + 2, returned := .signal (.timerWritten .delay) } ∧
    exec (.ldSTVx x) s =
      .next { s with st := s.reg x, pc := s.pc + 2, returned := .signal (.timerWritten .sound) }

/-! ## The deferred instructions and the host's transactions -/

/-- RND, LD Vx,K and LD Vx,DT at `step` (R212 to R214): only `phase` is written. -/
def Obligations.DeferredInstructionsSuspend : Prop :=
  ∀ (x : Reg) (nn : Byte) (s : State),
    decodeWord (wordXI 0xC x nn) = some (.rndVxNN x nn) ∧ decodeWord (wordXI 0xF x 0x0A) = some (.ldVxK x) ∧
    decodeWord (wordXI 0xF x 0x07) = some (.ldVxDT x) ∧
    exec (.rndVxNN x nn) s = .next { s with phase := .suspRandom, returned := .signal .needsRandom } ∧
    exec (.ldVxK x) s = .next { s with phase := .suspKey, returned := .signal .needsKey } ∧
    exec (.ldVxDT x) s = .next { s with phase := .suspDelay, returned := .signal .needsDelay }

/-- The accepted supplies (R217 to R219): the fields of the word at `pc`, numbered by R71, name the register and the mask.
The frame is R216; where the word at `pc` is not the matching instruction, in states no run reaches, that its bits are taken all the
same is log entry 29 (DEDUCED). -/
def Obligations.SuppliesCompleteTheInstruction : Prop :=
  ∀ (s : State) (w : Word) (x : Reg) (v : Nat) (rest : List HostCall),
    s.pc.toNat ≤ 0xFFE → w.toNat = (s.mem.read s.pc.toNat).toNat * 256 + (s.mem.read (s.pc.toNat + 1)).toNat →
    x.val = w.toNat / 256 % 16 →
    (s.host = .supplyRandom v :: rest → s.phase = .suspRandom → v ≤ 255 →
      step s = .next
        { s with
          x := s.x.set x.val (BitVec.ofNat 8 v &&& BitVec.ofNat 8 (w.toNat % 256))
          pc := s.pc + 2, phase := .ready, host := rest, returned := .nothing }) ∧
    (s.host = .supplyKey v :: rest → s.phase = .suspKey → v ≤ 15 →
      step s = .next
        { s with
          x := s.x.set x.val (BitVec.ofNat 8 v)
          pc := s.pc + 2, phase := .ready, host := rest, returned := .nothing }) ∧
    (s.host = .supplyDelay v :: rest → s.phase = .suspDelay → v ≤ 255 →
      step s = .next
        { s with
          x := s.x.set x.val (BitVec.ofNat 8 v)
          pc := s.pc + 2, phase := .ready, host := rest, returned := .nothing })

/-- Protocol misuse (R222): each misused call is Rejected and changes no state of the engine.
Rejected is the spec's decision D18 (log entry 19). -/
def Obligations.MisuseIsRejected : Prop :=
  ∀ (s : State) (v : Nat) (rest : List HostCall),
    ((s.host = .step :: rest ∧ s.phase ≠ .ready) ∨
     (s.host = .supplyRandom v :: rest ∧ (s.phase ≠ .suspRandom ∨ v > 255)) ∨
     (s.host = .supplyKey v :: rest ∧ (s.phase ≠ .suspKey ∨ v > 15)) ∨
     (s.host = .supplyDelay v :: rest ∧ (s.phase ≠ .suspDelay ∨ v > 255))) →
    step s = .next { s with host := rest, returned := .rejected }

/-- The source's own test of the protocol (R225) for the three instructions: the `step` call changes no `pc` and no register, the
matching supply then adds one instruction width to `pc` and writes the destination, and a supply in Ready is rejected.
R225 is the spec's derivation. -/
def Obligations.SuspendThenSupply : Prop :=
  ∀ (s : State) (x : Reg) (nn : Byte) (v : Nat) (rest : List HostCall), s.phase = .ready →
    (s.host = .step :: .supplyRandom v :: rest → s.fetch = some (encode (.rndVxNN x nn)) → v ≤ 255 → ∃ t u,
      step s = .next t ∧ t.pc = s.pc ∧ t.x = s.x ∧ t.returned = .signal .needsRandom ∧ step t = .next u ∧
      u = { s with
        x := s.x.set x.val (BitVec.ofNat 8 v &&& nn), pc := s.pc + 2, host := rest, returned := .nothing }) ∧
    (s.host = .step :: .supplyKey v :: rest → s.fetch = some (encode (.ldVxK x)) → v ≤ 15 → ∃ t u,
      step s = .next t ∧ t.pc = s.pc ∧ t.x = s.x ∧ t.returned = .signal .needsKey ∧ step t = .next u ∧
      u = { s with x := s.x.set x.val (BitVec.ofNat 8 v), pc := s.pc + 2, host := rest, returned := .nothing }) ∧
    (s.host = .step :: .supplyDelay v :: rest → s.fetch = some (encode (.ldVxDT x)) → v ≤ 255 → ∃ t u,
      step s = .next t ∧ t.pc = s.pc ∧ t.x = s.x ∧ t.returned = .signal .needsDelay ∧ step t = .next u ∧
      u = { s with x := s.x.set x.val (BitVec.ofNat 8 v), pc := s.pc + 2, host := rest, returned := .nothing }) ∧
    (s.host = .supplyRandom v :: rest ∨ s.host = .supplyKey v :: rest ∨ s.host = .supplyDelay v :: rest →
      step s = .next { s with host := rest, returned := .rejected })

/-- THE MODEL'S OWN CHOICE (log entries 4 and 5): with no host call pending, a deferred instruction completes in two steps, with a
value under no law; the key is at most 15. -/
def Obligations.ObedientHostCompletes : Prop :=
  ∀ (s : State) (x : Reg) (nn : Byte), s.phase = .ready → s.host = [] →
    (s.fetch = some (encode (.rndVxNN x nn)) → ∃ t, step s = .next t ∧ step t = .next
      { s with
        x := s.x.set x.val (Config.suppliedByte s.draws &&& nn)
        pc := s.pc + 2, draws := s.draws + 1, returned := .nothing }) ∧
    (s.fetch = some (encode (.ldVxK x)) → ∃ t v, step s = .next t ∧ v.toNat ≤ 15 ∧ step t = .next
      { s with x := s.x.set x.val v, pc := s.pc + 2, draws := s.draws + 1, returned := .nothing }) ∧
    (s.fetch = some (encode (.ldVxDT x)) → ∃ t, step s = .next t ∧ step t = .next
      { s with
        x := s.x.set x.val (Config.suppliedTicks s.draws)
        pc := s.pc + 2, draws := s.draws + 1, returned := .nothing })

/-- `set_keys` and the host's reads (R251, R252): accepted in every phase, they change nothing but `keys`, or nothing.
The whole-mask write is the spec's decision D27 (log entry 6). -/
def Obligations.HostAccessors : Prop :=
  ∀ (s : State) (mask : Word) (rest : List HostCall),
    (s.host = .setKeys mask :: rest → step s = .next { s with keys := mask, host := rest, returned := .nothing }) ∧
    (s.host = .readFramebuffer :: rest → step s = .next { s with host := rest, returned := .framebuffer s.fb }) ∧
    (s.host = .readKeys :: rest → step s = .next { s with host := rest, returned := .keyMask s.keys })

/-- `initialize` (R260 to R262) under every FONT and MEM_INIT_FILL, and by this machine's step: from any state the same state for the
same image, with the image's first 0xE00 bytes from 0x200 on, the glyph table in the first 80 bytes and the fill elsewhere.
The places of fill and font, and the reset of timers and phase, are the spec's completions (log entries 10, 11, 20), the length is log
entry 23, and the host's own fields stay by log entry 24. -/
def Obligations.InitializeMakesResetState : Prop :=
  ∀ (s : State) (image : List Byte) (rest : List HostCall), s.host = .initializeWith image :: rest →
    step s = stepWith machineParams s ∧
    ∀ p : Params, ∃ m : Memory, m.wf = true ∧
      stepWith p s = .next
        { x := Vector.replicate 16 0, I := 0, pc := 0x200, stack := Vector.replicate 16 0, sp := 0, keys := 0, mem := m
          fb := Vector.replicate 32 (Vector.replicate 64 false), dt := 0, st := 0, phase := .ready, returned := .nothing
          host := rest, draws := s.draws } ∧
      ∀ a : Nat, a < 0x1000 → m.read a =
        if 0x200 ≤ a ∧ a < 0x200 + min image.length 0xE00 then image.getD (a - 0x200) 0
        else if h : a < 80 then p.font[a] else p.memInitFill a

/-! ## Whole-machine rules -/

/-- The state right after reset holds R31's table for an empty image; the last three fields are the model's own (log entries 2
to 4).
The fill, font, timers and phase are the spec's completions (log entries 10, 11, 20). -/
def Obligations.ResetHoldsTheTable : Prop :=
  (∀ r, State.reset.reg r = 0) ∧ State.reset.I = 0 ∧ State.reset.pc = 0x200 ∧
  (∀ k : Fin 16, State.reset.stack[k] = 0) ∧ State.reset.sp = 0 ∧ State.reset.keys = 0 ∧
  (∀ px py, State.reset.fb.pixel px py = false) ∧ State.reset.dt = 0 ∧ State.reset.st = 0 ∧ State.reset.phase = .ready ∧
  (∀ a : Nat, State.reset.mem.read a = if h : a < 80 then fontTable[a] else memInitFill a) ∧
  State.reset.returned = .nothing ∧ State.reset.host = [] ∧ State.reset.draws = 0

/-- The invariant holds at reset.
The canonical form is the model's own (log entry 26). -/
def Obligations.InvariantAtReset : Prop := State.reset.Inv

/-- Every step keeps the invariant: memory stays canonical, and a suspension stands on its own instruction.
R32 and R223 are the spec's derivations; the canonical form is the model's own (log entry 26). -/
def Obligations.StepKeepsInvariant : Prop :=
  ∀ s t : State, s.Inv → step s = .next t → t.Inv

/-- R223: in every state a run can reach, under every sequence of host calls, a suspended phase stands on its instruction.
R223 is the spec's derivation. -/
def Obligations.SuspendedPhaseStandsOnItsInstruction : Prop :=
  ∀ (calls : List HostCall) (k n : Nat) (s : State),
    Host.Core.run core n { State.reset with host := calls, draws := k } = .next s → s.phase ≠ .ready →
    s.pc.toNat ≤ 0xFFE ∧
    (s.phase = .suspRandom → ∃ x nn, decodeWord (s.mem.readWord s.pc.toNat) = some (.rndVxNN x nn)) ∧
    (s.phase = .suspKey → ∃ x, decodeWord (s.mem.readWord s.pc.toNat) = some (.ldVxK x)) ∧
    (s.phase = .suspDelay → ∃ x, decodeWord (s.mem.readWord s.pc.toNat) = some (.ldVxDT x))

/-- No condition is fatal inside the core (R236): every instruction answers a next state in every state, and so does every step of
a state that meets the invariant.
That a signal is a next state is log entry 1; the one fault is log entry 25. -/
def Obligations.EveryStepGoesOn : Prop :=
  (∀ (i : Instr) (s : State), ∃ t, exec i s = .next t) ∧ (∀ s : State, s.Inv → ∃ t, step s = .next t)

/-- R236 and R237: a step that returns an error signal changes nothing, and the same step then returns the same signal again.
R237 is the spec's derivation; the record of the signal is log entries 1 and 2. -/
def Obligations.ErrorChangesNothingAndRepeats : Prop :=
  ∀ s t : State, s.host = [] → step s = .next t → t.returned.isError = true →
    t = { s with returned := t.returned } ∧ step t = .next t

/-- R231: which instruction raises which error signal, exactly when; and exactly when a step in Ready raises the two that are found
before any instruction runs.
Row 10 counts because ADMIT_8XY0 is true (log entry 9); a step with no call pending is log entry 4; the sprite check is D11 (log entry
16), FetchOutOfRange D15 and the one RegisterTransfer D16 (log entry 18); a signal is a next state by log entry 1. -/
def Obligations.ErrorCauses : Prop :=
  (∀ (i : Instr) (s : State) (g : Signal), g.isError = true →
    ((∃ t, exec i s = .next t ∧ t.returned = .signal g) ↔ operandError i s = some g)) ∧
  (∀ s : State, s.host = [] → s.phase = .ready →
    ((∃ t, step s = .next t ∧ t.returned = .signal .fetchOutOfRange) ↔ s.pc.toNat > 0xFFE) ∧
    ((∃ t, step s = .next t ∧ t.returned = .signal .invalidInstruction) ↔
      s.pc.toNat ≤ 0xFFE ∧ ∀ r ∈ rows, matchesRow (s.mem.readWord s.pc.toNat) r = false))

/-- R103 (and R212 to R214): the signal of an instruction that raises none.
The assignment is the spec's decisions D10 and D29 (log entry 18). -/
def Obligations.SignalsWithoutError : Prop :=
  ∀ (i : Instr) (s : State), operandError i s = none → ∃ t, exec i s = .next t ∧ t.returned = .signal (goodSignal i)

/-- The `pc` after every instruction (the table of R22, modulo 2^16), and after every error.
The wrap is the spec's decision D24 (log entry 17). -/
def Obligations.ProgramCounterTable : Prop :=
  ∀ (i : Instr) (s t : State), exec i s = .next t →
    (operandError i s = none → t.pc.toNat = nextPc i s % 2 ^ 16) ∧ (operandError i s ≠ none → t.pc = s.pc)

/-- R21 and R35: an instruction leaves every register alone that the tables do not name; so `x[15]` is written as a side effect by
ADD, SUB, SHR, SUBN, SHL and DRW only.
That the logic operations are not among them is D5 (log entry 14). -/
def Obligations.RegisterFrame : Prop :=
  ∀ (i : Instr) (s t : State) (r : Reg), exec i s = .next t → writesReg i r = false → t.reg r = s.reg r

/-- R23 and R24: only CALL and RET touch the stack and its depth, only CALL a slot, and only LD I, ADD I and LD F write I.
That BCD, dump and load leave I is D13 (log entry 15). -/
def Obligations.StackAndIndexFrame : Prop :=
  ∀ (i : Instr) (s t : State), exec i s = .next t →
    ((∀ nnn, i ≠ .callNNN nnn) → t.stack = s.stack) ∧
    ((∀ nnn, i ≠ .callNNN nnn) → i ≠ .ret → t.sp = s.sp) ∧
    ((∀ nnn, i ≠ .ldINNN nnn) → (∀ x, i ≠ .addIVx x) → (∀ x, i ≠ .ldFVx x) → t.I = s.I)

/-- R27 and R50: only BCD and the register dump write memory, and only CLS and DRW write the framebuffer. -/
def Obligations.MemoryAndScreenFrame : Prop :=
  ∀ (i : Instr) (s t : State), exec i s = .next t →
    ((∀ x, i ≠ .bcdVx x) → (∀ x, i ≠ .ldMemVx x) → t.mem = s.mem) ∧
    (i ≠ .cls → (∀ x y n, i ≠ .drwVxVyN x y n) → t.fb = s.fb)

/-- R25, R28 and R29: no instruction writes `keys`, only LD DT writes `dt`, only LD ST writes `st`, and only the three deferred
instructions write `phase`; none touches the host's pending calls or the count of supplied values. -/
def Obligations.TimerKeyAndPhaseFrame : Prop :=
  ∀ (i : Instr) (s t : State), exec i s = .next t →
    t.keys = s.keys ∧ t.host = s.host ∧ t.draws = s.draws ∧
    ((∀ x, i ≠ .ldDTVx x) → t.dt = s.dt) ∧ ((∀ x, i ≠ .ldSTVx x) → t.st = s.st) ∧
    ((∀ x nn, i ≠ .rndVxNN x nn) → (∀ x, i ≠ .ldVxK x) → (∀ x, i ≠ .ldVxDT x) → t.phase = s.phase)

/-- E4 and R107: calls succeed while at most 16 are live, whatever their targets, and one more signals StackOverflow. -/
def Obligations.SixteenCallsSucceed : Prop :=
  ∀ (targets : List Addr) (s : State), s.sp.val + targets.length ≤ 16 → ∃ t,
    execAll (targets.map .callNNN) s = .next t ∧ t.sp.val = s.sp.val + targets.length ∧
    (t.sp.val = 16 → ∀ nnn, exec (.callNNN nnn) t = .next { t with returned := .signal .stackOverflow })

/-- R105 and R107: a RET right after a CALL resumes at the instruction after the CALL, with the depth and everything else but the
stale slot as before. -/
def Obligations.RetUndoesCall : Prop :=
  ∀ (nnn : Addr) (s : State), s.sp.val < 16 → ∃ t,
    execAll [.callNNN nnn, .ret] s = .next t ∧
    t = { s with stack := t.stack, pc := s.pc + 2, returned := .signal .completed } ∧
    ∀ k : Fin 16, k.val ≠ s.sp.val → t.stack[k] = s.stack[k]

/-! ## The parameters, and the ends of a run -/

/-- The five parameters are arguments of the step relation (R6): under every one of them a step of a Ready engine fetches, decodes
under ADMIT_8XY0 and runs the instruction; the shifts and the draw take theirs, and no other instruction depends on one. This
machine's step and `exec` are the instance at `machineParams` (log entry 31); with no call pending, log entry 4. -/
def Obligations.StepUnderEveryParameter : Prop :=
  ∀ (p : Params) (s : State), s.phase = .ready → s.pc.toNat ≤ 0xFFE →
    (∀ i, decodeWordWith p.admit8XY0 (s.mem.readWord s.pc.toNat) = some i →
      (s.host = [] → stepWith p s = execWith p i s) ∧
      (∀ rest, s.host = .step :: rest → stepWith p s = execWith p i { s with host := rest })) ∧
    (decodeWordWith p.admit8XY0 (s.mem.readWord s.pc.toNat) = none →
      ∀ rest, s.host = .step :: rest →
        stepWith p s = .next { s with host := rest, returned := .signal .invalidInstruction }) ∧
    (∀ x y, execWith p (.shrVxVy x y) s = shiftRight p.shiftSource x y s) ∧
    (∀ x y, execWith p (.shlVxVy x y) s = shiftLeft p.shiftSource x y s) ∧
    (∀ x y n, execWith p (.drwVxVyN x y n) s = drawSprite p.drawEdgeMode x y n s) ∧
    (∀ i, (∀ x y, i ≠ .shrVxVy x y) → (∀ x y, i ≠ .shlVxVy x y) → (∀ x y n, i ≠ .drwVxVyN x y n) →
      execWith p i s = exec i s) ∧
    step s = stepWith machineParams s ∧ ∀ i, execWith machineParams i s = exec i s

/-- The ends this model names last (R275, D26; log entry 30): at an end, whatever the parameters and the host's next call, the call
changes nothing of the engine but `keys` and the state is still at that end, unless the call is `initialize` or it is a supply that
ends a suspension; and a jump to itself completes with nothing changed. -/
def Obligations.EndsOfARunLast : Prop :=
  ∀ (p : Params) (s t : State) (e : RunEnd) (c : HostCall) (rest : List HostCall),
    s.runEnd p = some e → s.host = c :: rest → stepWith p s = .next t → (∀ image, c ≠ .initializeWith image) →
    (t.phase = s.phase → t = { s with keys := t.keys, host := rest, returned := t.returned } ∧ t.runEnd p = some e) ∧
    (t.phase ≠ s.phase → e = .suspension ∧ t.phase = .ready ∧
      ((∃ v, c = .supplyRandom v) ∨ (∃ v, c = .supplyKey v) ∨ (∃ v, c = .supplyDelay v))) ∧
    (e = .error → c = .step → t.returned.isError = true) ∧
    (e = .jumpToSelf → c = .step → t.returned = .signal .completed) ∧
    (e = .suspension → c = .step → t.returned = .rejected)
end

