-- ==== Sys2Proof/Laws/State.lean ====
section
/-! SUPPORT. What each named update of State does to each field, all true by unfolding once, and what reset leaves. -/

namespace Sys2Proof.Machine

@[simp] theorem State.setReg_x (s : State) (r : Reg) (v : Byte) : (s.setReg r v).x = s.x.set r.val v := rfl
@[simp] theorem State.setReg_I (s : State) (r : Reg) (v : Byte) : (s.setReg r v).I = s.I := rfl
@[simp] theorem State.setReg_pc (s : State) (r : Reg) (v : Byte) : (s.setReg r v).pc = s.pc := rfl
@[simp] theorem State.setReg_stack (s : State) (r : Reg) (v : Byte) : (s.setReg r v).stack = s.stack := rfl
@[simp] theorem State.setReg_sp (s : State) (r : Reg) (v : Byte) : (s.setReg r v).sp = s.sp := rfl
@[simp] theorem State.setReg_keys (s : State) (r : Reg) (v : Byte) : (s.setReg r v).keys = s.keys := rfl
@[simp] theorem State.setReg_mem (s : State) (r : Reg) (v : Byte) : (s.setReg r v).mem = s.mem := rfl
@[simp] theorem State.setReg_fb (s : State) (r : Reg) (v : Byte) : (s.setReg r v).fb = s.fb := rfl
@[simp] theorem State.setReg_dt (s : State) (r : Reg) (v : Byte) : (s.setReg r v).dt = s.dt := rfl
@[simp] theorem State.setReg_st (s : State) (r : Reg) (v : Byte) : (s.setReg r v).st = s.st := rfl
@[simp] theorem State.setReg_phase (s : State) (r : Reg) (v : Byte) : (s.setReg r v).phase = s.phase := rfl
@[simp] theorem State.setReg_returned (s : State) (r : Reg) (v : Byte) : (s.setReg r v).returned = s.returned := rfl
@[simp] theorem State.setReg_host (s : State) (r : Reg) (v : Byte) : (s.setReg r v).host = s.host := rfl
@[simp] theorem State.setReg_draws (s : State) (r : Reg) (v : Byte) : (s.setReg r v).draws = s.draws := rfl

@[simp] theorem State.writeByte_x (s : State) (a : Nat) (v : Byte) : (s.writeByte a v).x = s.x := rfl
@[simp] theorem State.writeByte_I (s : State) (a : Nat) (v : Byte) : (s.writeByte a v).I = s.I := rfl
@[simp] theorem State.writeByte_pc (s : State) (a : Nat) (v : Byte) : (s.writeByte a v).pc = s.pc := rfl
@[simp] theorem State.writeByte_stack (s : State) (a : Nat) (v : Byte) : (s.writeByte a v).stack = s.stack := rfl
@[simp] theorem State.writeByte_sp (s : State) (a : Nat) (v : Byte) : (s.writeByte a v).sp = s.sp := rfl
@[simp] theorem State.writeByte_keys (s : State) (a : Nat) (v : Byte) : (s.writeByte a v).keys = s.keys := rfl
@[simp] theorem State.writeByte_mem (s : State) (a : Nat) (v : Byte) : (s.writeByte a v).mem = s.mem.write a v := rfl
@[simp] theorem State.writeByte_fb (s : State) (a : Nat) (v : Byte) : (s.writeByte a v).fb = s.fb := rfl
@[simp] theorem State.writeByte_dt (s : State) (a : Nat) (v : Byte) : (s.writeByte a v).dt = s.dt := rfl
@[simp] theorem State.writeByte_st (s : State) (a : Nat) (v : Byte) : (s.writeByte a v).st = s.st := rfl
@[simp] theorem State.writeByte_phase (s : State) (a : Nat) (v : Byte) : (s.writeByte a v).phase = s.phase := rfl
@[simp] theorem State.writeByte_returned (s : State) (a : Nat) (v : Byte) : (s.writeByte a v).returned = s.returned := rfl
@[simp] theorem State.writeByte_host (s : State) (a : Nat) (v : Byte) : (s.writeByte a v).host = s.host := rfl
@[simp] theorem State.writeByte_draws (s : State) (a : Nat) (v : Byte) : (s.writeByte a v).draws = s.draws := rfl

@[simp] theorem State.advance_x (s : State) (n : Word) : (s.advance n).x = s.x := rfl
@[simp] theorem State.advance_I (s : State) (n : Word) : (s.advance n).I = s.I := rfl
@[simp] theorem State.advance_pc (s : State) (n : Word) : (s.advance n).pc = s.pc + n := rfl
@[simp] theorem State.advance_stack (s : State) (n : Word) : (s.advance n).stack = s.stack := rfl
@[simp] theorem State.advance_sp (s : State) (n : Word) : (s.advance n).sp = s.sp := rfl
@[simp] theorem State.advance_keys (s : State) (n : Word) : (s.advance n).keys = s.keys := rfl
@[simp] theorem State.advance_mem (s : State) (n : Word) : (s.advance n).mem = s.mem := rfl
@[simp] theorem State.advance_fb (s : State) (n : Word) : (s.advance n).fb = s.fb := rfl
@[simp] theorem State.advance_dt (s : State) (n : Word) : (s.advance n).dt = s.dt := rfl
@[simp] theorem State.advance_st (s : State) (n : Word) : (s.advance n).st = s.st := rfl
@[simp] theorem State.advance_phase (s : State) (n : Word) : (s.advance n).phase = s.phase := rfl
@[simp] theorem State.advance_returned (s : State) (n : Word) : (s.advance n).returned = s.returned := rfl
@[simp] theorem State.advance_host (s : State) (n : Word) : (s.advance n).host = s.host := rfl
@[simp] theorem State.advance_draws (s : State) (n : Word) : (s.advance n).draws = s.draws := rfl

@[simp] theorem State.jump_x (s : State) (t : Word) : (s.jump t).x = s.x := rfl
@[simp] theorem State.jump_I (s : State) (t : Word) : (s.jump t).I = s.I := rfl
@[simp] theorem State.jump_pc (s : State) (t : Word) : (s.jump t).pc = t := rfl
@[simp] theorem State.jump_stack (s : State) (t : Word) : (s.jump t).stack = s.stack := rfl
@[simp] theorem State.jump_sp (s : State) (t : Word) : (s.jump t).sp = s.sp := rfl
@[simp] theorem State.jump_keys (s : State) (t : Word) : (s.jump t).keys = s.keys := rfl
@[simp] theorem State.jump_mem (s : State) (t : Word) : (s.jump t).mem = s.mem := rfl
@[simp] theorem State.jump_fb (s : State) (t : Word) : (s.jump t).fb = s.fb := rfl
@[simp] theorem State.jump_dt (s : State) (t : Word) : (s.jump t).dt = s.dt := rfl
@[simp] theorem State.jump_st (s : State) (t : Word) : (s.jump t).st = s.st := rfl
@[simp] theorem State.jump_phase (s : State) (t : Word) : (s.jump t).phase = s.phase := rfl
@[simp] theorem State.jump_returned (s : State) (t : Word) : (s.jump t).returned = s.returned := rfl
@[simp] theorem State.jump_host (s : State) (t : Word) : (s.jump t).host = s.host := rfl
@[simp] theorem State.jump_draws (s : State) (t : Word) : (s.jump t).draws = s.draws := rfl

@[simp] theorem State.returning_x (s : State) (r : Returned) : (s.returning r).x = s.x := rfl
@[simp] theorem State.returning_I (s : State) (r : Returned) : (s.returning r).I = s.I := rfl
@[simp] theorem State.returning_pc (s : State) (r : Returned) : (s.returning r).pc = s.pc := rfl
@[simp] theorem State.returning_stack (s : State) (r : Returned) : (s.returning r).stack = s.stack := rfl
@[simp] theorem State.returning_sp (s : State) (r : Returned) : (s.returning r).sp = s.sp := rfl
@[simp] theorem State.returning_keys (s : State) (r : Returned) : (s.returning r).keys = s.keys := rfl
@[simp] theorem State.returning_mem (s : State) (r : Returned) : (s.returning r).mem = s.mem := rfl
@[simp] theorem State.returning_fb (s : State) (r : Returned) : (s.returning r).fb = s.fb := rfl
@[simp] theorem State.returning_dt (s : State) (r : Returned) : (s.returning r).dt = s.dt := rfl
@[simp] theorem State.returning_st (s : State) (r : Returned) : (s.returning r).st = s.st := rfl
@[simp] theorem State.returning_phase (s : State) (r : Returned) : (s.returning r).phase = s.phase := rfl
@[simp] theorem State.returning_returned (s : State) (r : Returned) : (s.returning r).returned = r := rfl
@[simp] theorem State.returning_host (s : State) (r : Returned) : (s.returning r).host = s.host := rfl
@[simp] theorem State.returning_draws (s : State) (r : Returned) : (s.returning r).draws = s.draws := rfl

@[simp] theorem State.setReg_reg_self (s : State) (r : Reg) (v : Byte) : (s.setReg r v).reg r = v := by
  simp [State.reg]

theorem State.setReg_reg_ne (s : State) (r q : Reg) (v : Byte) (h : q ≠ r) : (s.setReg r v).reg q = s.reg q := by
  have : r.val ≠ q.val := fun e => h (Fin.ext e.symm)
  simp [State.reg, Vector.getElem_set_ne _ _ this]

theorem State.setReg_reg (s : State) (r q : Reg) (v : Byte) :
    (s.setReg r v).reg q = if q = r then v else s.reg q := by
  split
  · next h => subst h; simp
  · next h => exact s.setReg_reg_ne r q v h

/-- After a flag-writing instruction the flag register holds the flag, whatever the destination (R150). -/
@[simp] theorem State.writeResultAndFlag_reg_flag (s : State) (x : Reg) (res flag : Byte) :
    (s.writeResultAndFlag x res flag).reg flagReg = flag := by
  simp [State.writeResultAndFlag]

/-- After a flag-writing instruction a destination other than the flag register holds the result (R132). -/
theorem State.writeResultAndFlag_reg_dest (s : State) (x : Reg) (res flag : Byte) (h : x ≠ flagReg) :
    (s.writeResultAndFlag x res flag).reg x = res := by
  simp [State.writeResultAndFlag, State.setReg_reg_ne _ _ _ _ h]

/-- A flag-writing instruction touches no register but its destination and the flag register (R132). -/
theorem State.writeResultAndFlag_reg_other (s : State) (x q : Reg) (res flag : Byte) (hx : q ≠ x) (hf : q ≠ flagReg) :
    (s.writeResultAndFlag x res flag).reg q = s.reg q := by
  simp [State.writeResultAndFlag, State.setReg_reg_ne _ _ _ _ hf, State.setReg_reg_ne _ _ _ _ hx]

/-- Registers read at reset (R31). -/
@[simp] theorem State.reset_reg (r : Reg) : State.reset.reg r = 0 := by
  simp [State.reset, State.reg]

end Sys2Proof.Machine
end

