-- ==== Sys2Proof/Laws/Encoding.lean ====
section
/-! SUPPORT. The fields of a word built by a format are the fields it was built from (R71, R72), and a word of two bytes has them. -/

namespace Sys2Proof

@[simp] theorem fieldOP_wordA (op : BitVec 4) (nnn : Addr) : fieldOP (wordA op nnn) = op := by
  rw [fieldOP, wordA, BitVec.extractLsb'_append_eq_of_le (by omega)]
  simp

@[simp] theorem fieldNNN_wordA (op : BitVec 4) (nnn : Addr) : fieldNNN (wordA op nnn) = nnn := by
  rw [fieldNNN, wordA, BitVec.extractLsb'_append_eq_of_add_le (by omega)]
  simp

@[simp] theorem toFin_bits (r : Reg) : (Reg.bits r).toFin = r := rfl

theorem bytes_hi_hi (a b : BitVec 4) (lo : Byte) : ((a ++ b : BitVec 8) ++ lo : Word).extractLsb' 12 4 = a := by
  rw [BitVec.extractLsb'_append_eq_of_le (by omega), BitVec.extractLsb'_append_eq_of_le (by omega)]
  simp

theorem bytes_hi_lo (a b : BitVec 4) (lo : Byte) : ((a ++ b : BitVec 8) ++ lo : Word).extractLsb' 8 4 = b := by
  rw [BitVec.extractLsb'_append_eq_of_le (by omega), BitVec.extractLsb'_append_eq_of_add_le (by omega)]
  simp

theorem bytes_lo_hi (hi : Byte) (a b : BitVec 4) : (hi ++ (a ++ b : BitVec 8) : Word).extractLsb' 4 4 = a := by
  rw [BitVec.extractLsb'_append_eq_of_add_le (by omega), BitVec.extractLsb'_append_eq_of_le (by omega)]
  simp

theorem bytes_lo_lo (hi : Byte) (a b : BitVec 4) : (hi ++ (a ++ b : BitVec 8) : Word).extractLsb' 0 4 = b := by
  rw [BitVec.extractLsb'_append_eq_of_add_le (by omega), BitVec.extractLsb'_append_eq_of_add_le (by omega)]
  simp

@[simp] theorem fieldOP_wordXI (op : BitVec 4) (x : Reg) (nn : Byte) : fieldOP (wordXI op x nn) = op := bytes_hi_hi _ _ _

@[simp] theorem fieldX_wordXI (op : BitVec 4) (x : Reg) (nn : Byte) : fieldX (wordXI op x nn) = x := by
  rw [fieldX, wordXI, bytes_hi_lo]; rfl

@[simp] theorem fieldNN_wordXI (op : BitVec 4) (x : Reg) (nn : Byte) : fieldNN (wordXI op x nn) = nn := by
  rw [fieldNN, wordXI, BitVec.extractLsb'_append_eq_of_add_le (by omega)]
  simp

@[simp] theorem fieldOP_wordXY (op : BitVec 4) (x y : Reg) (n : BitVec 4) : fieldOP (wordXY op x y n) = op := bytes_hi_hi _ _ _

@[simp] theorem fieldX_wordXY (op : BitVec 4) (x y : Reg) (n : BitVec 4) : fieldX (wordXY op x y n) = x := by
  rw [fieldX, wordXY, bytes_hi_lo]; rfl

@[simp] theorem fieldY_wordXY (op : BitVec 4) (x y : Reg) (n : BitVec 4) : fieldY (wordXY op x y n) = y := by
  rw [fieldY, wordXY, bytes_lo_hi]; rfl

@[simp] theorem fieldN_wordXY (op : BitVec 4) (x y : Reg) (n : BitVec 4) : fieldN (wordXY op x y n) = n := bytes_lo_lo _ _ _

/-- A word is its high byte followed by its low byte (R51). -/
@[simp] theorem wordOfBytes_high_low (w : Word) : wordOfBytes (highByte w) (lowByte w) = w := by
  simp only [wordOfBytes, highByte, lowByte]
  apply BitVec.eq_of_getLsbD_eq
  intro k hk
  rw [BitVec.getLsbD_append]
  by_cases h : k < 8
  · simp [h]
  · simp only [h, BitVec.getLsbD_extractLsb', decide_false, if_false]
    have : k - 8 < 8 := by omega
    have e : 8 + (k - 8) = k := by omega
    simp [this, e]

/-- A word is put together from its fields in any format (R71). -/
theorem wordA_fields (w : Word) : wordA (fieldOP w) (fieldNNN w) = w := by
  apply BitVec.eq_of_getLsbD_eq
  intro k hk
  simp only [wordA, fieldOP, fieldNNN, BitVec.getLsbD_append, BitVec.getLsbD_extractLsb']
  by_cases h : k < 12
  · simp [h]
  · have e : 12 + (k - 12) = k := by omega
    simp [h, e, show k - 12 < 4 by omega]

/-- The register field's bits, as cut from the word. -/
theorem bits_fieldX (w : Word) : Reg.bits (fieldX w) = w.extractLsb' 8 4 := rfl
theorem bits_fieldY (w : Word) : Reg.bits (fieldY w) = w.extractLsb' 4 4 := rfl

theorem wordXI_fields (w : Word) : wordXI (fieldOP w) (fieldX w) (fieldNN w) = w := by
  apply BitVec.eq_of_getLsbD_eq
  intro k hk
  simp only [wordXI, bits_fieldX, fieldOP, fieldNN, BitVec.getLsbD_append, BitVec.getLsbD_extractLsb']
  by_cases h : k < 8
  · simp [h]
  · by_cases h2 : k - 8 < 4
    · have e : 8 + (k - 8) = k := by omega
      simp [h, h2, e]
    · have e : 12 + (k - 8 - 4) = k := by omega
      simp [h, h2, e, show k - 8 - 4 < 4 by omega]

theorem wordXY_fields (w : Word) : wordXY (fieldOP w) (fieldX w) (fieldY w) (fieldN w) = w := by
  apply BitVec.eq_of_getLsbD_eq
  intro k hk
  simp only [wordXY, bits_fieldX, bits_fieldY, fieldOP, fieldN, BitVec.getLsbD_append, BitVec.getLsbD_extractLsb']
  by_cases h : k < 8
  · by_cases h2 : k < 4
    · simp [h, h2]
    · have e : 4 + (k - 4) = k := by omega
      simp [h, h2, e, show k - 4 < 4 by omega]
  · by_cases h2 : k - 8 < 4
    · have e : 8 + (k - 8) = k := by omega
      simp [h, h2, e]
    · have e : 12 + (k - 8 - 4) = k := by omega
      simp [h, h2, e, show k - 8 - 4 < 4 by omega]

/-- Two words with the same OP, X and NN are one word (R71). -/
theorem word_ext_fields {v w : Word} (h1 : fieldOP v = fieldOP w) (h2 : fieldX v = fieldX w) (h3 : fieldNN v = fieldNN w) : v = w := by
  rw [← wordXI_fields v, ← wordXI_fields w, h1, h2, h3]

/-- What the mask of format A and XI rows keeps (R74). -/
theorem and_F000 (w : Word) : w &&& 0xF000 = wordXI (fieldOP w) 0 0 := by
  apply BitVec.eq_of_getLsbD_eq
  intro k hk
  simp only [wordXI, fieldOP, Reg.bits, BitVec.getLsbD_and, BitVec.getLsbD_append, BitVec.getLsbD_extractLsb']
  interval_cases k <;> simp

/-- What the mask of format XY rows keeps (R74). -/
theorem and_F00F (w : Word) : w &&& 0xF00F = wordXY (fieldOP w) 0 0 (fieldN w) := by
  apply BitVec.eq_of_getLsbD_eq
  intro k hk
  simp only [wordXY, fieldOP, fieldN, Reg.bits, BitVec.getLsbD_and, BitVec.getLsbD_append, BitVec.getLsbD_extractLsb']
  interval_cases k <;> simp

/-- What the mask of format XS rows keeps (R74). -/
theorem and_F0FF (w : Word) : w &&& 0xF0FF = wordXI (fieldOP w) 0 (fieldNN w) := by
  apply BitVec.eq_of_getLsbD_eq
  intro k hk
  simp only [wordXI, fieldOP, fieldNN, Reg.bits, BitVec.getLsbD_and, BitVec.getLsbD_append, BitVec.getLsbD_extractLsb']
  interval_cases k <;> simp
end Sys2Proof
end

