-- ==== Sys2Proof/Laws/Memory.lean ====
section
/-! SUPPORT. The laws of memory: every operation keeps the canonical form, a read after a write gives the byte written, and a write
leaves every other address alone; and the same for the pixels of the framebuffer. -/

namespace Sys2Proof.Machine

theorem Memory.wfFrom_mono {lo lo' : Nat} {m : Memory} (h : lo' ≤ lo) (hm : Memory.wfFrom lo m = true) :
    Memory.wfFrom lo' m = true := by
  cases m with
  | nil => rfl
  | cons c m =>
    simp only [Memory.wfFrom, Bool.and_eq_true, decide_eq_true_eq] at hm ⊢
    exact ⟨⟨⟨by omega, hm.1.1.2⟩, hm.1.2⟩, hm.2⟩

/-- In a canonical memory an address below every cell reads as an unlisted one. -/
theorem Memory.read_below {lo a : Nat} {m : Memory} (hm : Memory.wfFrom lo m = true) (h : a < lo) :
    m.read a = resetByte a := by
  induction m generalizing lo with
  | nil => rfl
  | cons c m ih =>
    obtain ⟨b, v⟩ := c
    simp only [Memory.wfFrom, Bool.and_eq_true, decide_eq_true_eq] at hm
    have hne : a ≠ b := by omega
    simpa [Memory.read, hne] using ih hm.2 (by omega)

theorem Memory.wfFrom_write {lo a : Nat} {m : Memory} (v : Byte) (hm : Memory.wfFrom lo m = true) (hlo : lo ≤ a)
    (ha : a < 0x1000) : Memory.wfFrom lo (m.write a v) = true := by
  induction m generalizing lo with
  | nil =>
    by_cases hv : v = resetByte a <;> simp [Memory.write, hv, Memory.wfFrom, hlo, ha]
  | cons c m ih =>
    obtain ⟨b, w⟩ := c
    simp only [Memory.wfFrom, Bool.and_eq_true, decide_eq_true_eq] at hm
    obtain ⟨⟨⟨h1, h2⟩, h3⟩, h4⟩ := hm
    unfold Memory.write
    split
    · next hb => simp [Memory.wfFrom, h1, h2, h3, ih h4 (by omega)]
    · split
      · next hb =>
        subst hb
        split
        · exact Memory.wfFrom_mono (by omega) h4
        · next hv => simp [Memory.wfFrom, h1, h2, hv, h4]
      · split
        · simp [Memory.wfFrom, h1, h2, h3, h4]
        · next hb hv =>
          simp only [Memory.wfFrom, Bool.and_eq_true, decide_eq_true_eq]
          exact ⟨⟨⟨hlo, ha⟩, hv⟩, ⟨⟨by omega, h2⟩, h3⟩, h4⟩

/-- A write inside memory keeps the canonical form. -/
theorem Memory.wf_write {m : Memory} {a : Nat} (v : Byte) (hm : m.wf = true) (ha : a < 0x1000) :
    (m.write a v).wf = true := Memory.wfFrom_write v hm (Nat.zero_le a) ha

theorem Memory.readFrom_write {lo a : Nat} {m : Memory} (v : Byte) (q : Nat) (hm : Memory.wfFrom lo m = true) :
    (m.write a v).read q = if q = a then v else m.read q := by
  induction m generalizing lo with
  | nil =>
    by_cases hv : v = resetByte a <;> by_cases hq : q = a <;> simp [Memory.write, Memory.read, hv, hq]
  | cons c m ih =>
    obtain ⟨b, w⟩ := c
    simp only [Memory.wfFrom, Bool.and_eq_true, decide_eq_true_eq] at hm
    obtain ⟨⟨⟨h1, h2⟩, h3⟩, h4⟩ := hm
    have hbelow : q < b + 1 → Memory.read m q = resetByte q := Memory.read_below h4
    unfold Memory.write
    split
    · next hb =>
      by_cases hqb : q = b
      · have : q ≠ a := by omega
        simp [Memory.read, hqb]; omega
      · simp [Memory.read, hqb, ih h4]
    · split
      · next hb =>
        subst hb
        split
        · next hv =>
          by_cases hqb : q = b
          · subst hqb; simp [hbelow (by omega), hv]
          · simp [Memory.read, hqb]
        · by_cases hqb : q = b <;> simp [Memory.read, hqb]
      · next hnb hne =>
        split
        · next hv =>
          by_cases hqa : q = a
          · subst hqa
            have : q ≠ b := by omega
            simp [Memory.read, this, hbelow (by omega), hv]
          · simp [hqa]
        · by_cases hqa : q = a <;> simp [Memory.read, hqa]

/-- A read after a write: the byte written at its address, and elsewhere what was there (R58). -/
theorem Memory.read_write {m : Memory} (hm : m.wf = true) (a : Nat) (v : Byte) (q : Nat) :
    (m.write a v).read q = if q = a then v else m.read q := Memory.readFrom_write v q hm

/-- Ascending writes inside memory keep the canonical form. -/
theorem Memory.wf_writeBytes {m : Memory} {a : Nat} (vs : List Byte) (hm : m.wf = true) (ha : a + vs.length ≤ 0x1000) :
    (m.writeBytes a vs).wf = true := by
  induction vs generalizing m a with
  | nil => exact hm
  | cons v vs ih =>
    simp only [List.length_cons] at ha
    exact ih (Memory.wf_write v hm (by omega)) (by omega)

/-- A read after ascending writes inside memory. -/
theorem Memory.read_writeBytes {m : Memory} {a : Nat} (vs : List Byte) (q : Nat) (hm : m.wf = true)
    (ha : a + vs.length ≤ 0x1000) :
    (m.writeBytes a vs).read q = if a ≤ q ∧ q < a + vs.length then vs.getD (q - a) 0 else m.read q := by
  induction vs generalizing m a with
  | nil => simp only [Memory.writeBytes, List.length_nil, Nat.add_zero]; rw [if_neg (by omega)]
  | cons v vs ih =>
    simp only [List.length_cons] at ha
    rw [Memory.writeBytes, ih (Memory.wf_write v hm (by omega)) (by omega), Memory.read_write hm]
    by_cases h1 : q = a
    · subst h1
      rw [if_neg (by omega), if_pos rfl, if_pos (by simp)]
      simp
    · by_cases h2 : a + 1 ≤ q ∧ q < a + 1 + vs.length
      · rw [if_pos h2, if_pos (by simp only [List.length_cons]; omega)]
        have : q - a = (q - (a + 1)) + 1 := by omega
        rw [this, List.getD_cons_succ]
      · rw [if_neg h2, if_neg h1, if_neg (by simp only [List.length_cons]; omega)]

theorem Memory.wfFrom_ofBytes (f : Nat → Byte) {n : Nat} (hn : n ≤ 0x1000) :
    Memory.wfFrom (0x1000 - n) (Memory.ofBytes f n) = true := by
  induction n with
  | zero => rfl
  | succ n ih =>
    have hnext : 0xFFF - n + 1 = 0x1000 - n := by omega
    unfold Memory.ofBytes
    split
    · exact Memory.wfFrom_mono (by omega) (ih (by omega))
    · next h =>
      simp only [Memory.wfFrom, Bool.and_eq_true, decide_eq_true_eq, hnext]
      exact ⟨⟨⟨by omega, by omega⟩, h⟩, ih (by omega)⟩

/-- A memory made of bytes is canonical. -/
theorem Memory.wf_ofBytes (f : Nat → Byte) : (Memory.ofBytes f 0x1000).wf = true := Memory.wfFrom_ofBytes f (Nat.le_refl _)

theorem Memory.read_lastBytes (f : Nat → Byte) {n : Nat} (hn : n ≤ 0x1000) (a : Nat) :
    (Memory.ofBytes f n).read a = if 0x1000 - n ≤ a ∧ a < 0x1000 then f a else resetByte a := by
  induction n with
  | zero => rw [if_neg (by omega)]; rfl
  | succ n ih =>
    unfold Memory.ofBytes
    by_cases ha : a = 0xFFF - n
    · subst ha
      rw [if_pos (show 0x1000 - (n + 1) ≤ 0xFFF - n ∧ 0xFFF - n < 0x1000 by omega)]
      split
      · next h => rw [ih (by omega), if_neg (by omega), h]
      · simp [Memory.read]
    · have hr : ∀ b, Memory.read ((0xFFF - n, b) :: Memory.ofBytes f n) a = (Memory.ofBytes f n).read a := by
        intro b; simp [Memory.read, ha]
      have hif : (0x1000 - (n + 1) ≤ a ∧ a < 0x1000) ↔ (0x1000 - n ≤ a ∧ a < 0x1000) := by omega
      split <;> simp only [hr, ih (by omega), hif]

/-- A memory made of bytes reads as they are. -/
theorem Memory.read_ofBytes (f : Nat → Byte) {a : Nat} (ha : a < 0x1000) : (Memory.ofBytes f 0x1000).read a = f a := by
  rw [Memory.read_lastBytes f (Nat.le_refl _), if_pos ⟨by omega, ha⟩]

/-- This machine's own reset contents list nothing. -/
theorem Memory.ofBytes_resetByte (n : Nat) : Memory.ofBytes resetByte n = [] := by
  induction n with
  | zero => rfl
  | succ n ih => simp [Memory.ofBytes, ih]

/-- A register dump inside memory keeps the canonical form. -/
theorem Memory.wf_writeRegs {m : Memory} {a : Nat} (x : Vector Byte 16) (n : Nat) (hn : n ≤ 16) (hm : m.wf = true)
    (ha : a + n ≤ 0x1000) : (m.writeRegs a x n hn).wf = true := by
  induction n with
  | zero => exact hm
  | succ n ih => exact Memory.wf_write _ (ih (by omega) (by omega)) (by omega)

/-- A read after a register dump inside memory: `x[k]` at `a + k`, and elsewhere what was there (R168). -/
theorem Memory.read_writeRegs {m : Memory} {a : Nat} (x : Vector Byte 16) (n : Nat) (hn : n ≤ 16) (q : Nat)
    (hm : m.wf = true) (ha : a + n ≤ 0x1000) :
    (m.writeRegs a x n hn).read q = if h : a ≤ q ∧ q < a + n then x[q - a] else m.read q := by
  induction n with
  | zero => rw [Memory.writeRegs, dif_neg (by omega)]
  | succ n ih =>
    rw [Memory.writeRegs, Memory.read_write (Memory.wf_writeRegs x n _ hm (by omega)), ih (by omega) (by omega)]
    by_cases h1 : q = a + n
    · subst h1
      rw [if_pos rfl, dif_pos (by omega)]
      simp
    · by_cases h2 : a ≤ q ∧ q < a + n
      · rw [if_neg h1, dif_pos h2, dif_pos (by omega)]
      · rw [if_neg h1, dif_neg h2, dif_neg (by omega)]

/-- The registers after a register load: the byte at `a + k` in `x[k]` below `n`, and the others as they were (R170). -/
theorem Memory.getElem_readRegs (m : Memory) (a : Nat) (x : Vector Byte 16) (n : Nat) (hn : n ≤ 16) (k : Nat) (hk : k < 16) :
    (m.readRegs a x n hn)[k] = if k < n then m.read (a + k) else x[k] := by
  induction n with
  | zero => rfl
  | succ n ih =>
    simp only [Memory.readRegs, Vector.getElem_set, ih (by omega)]
    by_cases h1 : n = k
    · subst h1; simp
    · by_cases h2 : k < n
      · rw [if_neg h1, if_pos h2, if_pos (by omega)]
      · rw [if_neg h1, if_neg h2, if_neg (by omega)]

/-- A pixel after a pixel write: the value at its place, and elsewhere what was there (R27). -/
theorem Framebuffer.pixel_setPixel (fb : Framebuffer) (px qx : Fin 64) (py qy : Fin 32) (b : Bool) :
    (fb.setPixel px py b).pixel qx qy = if qx = px ∧ qy = py then b else fb.pixel qx qy := by
  unfold Framebuffer.pixel Framebuffer.setPixel
  by_cases hy : qy = py
  · subst hy
    by_cases hx : qx = px
    · subst hx; simp
    · have : px.val ≠ qx.val := fun e => hx (Fin.ext e.symm)
      simp [hx, Vector.getElem_set_ne _ _ this]
  · have : py.val ≠ qy.val := fun e => hy (Fin.ext e.symm)
    simp [hy, Vector.getElem_set_ne _ _ this]

/-- Every pixel of the blank screen is unset (R180). -/
@[simp] theorem Framebuffer.pixel_blank (px : Fin 64) (py : Fin 32) : Framebuffer.blank.pixel px py = false := by
  simp [Framebuffer.pixel, Framebuffer.blank]

end Sys2Proof.Machine
end

