-- ==== Sys2Proof/Laws/Ops.lean ====
section
/-! SUPPORT. What each shared operation can answer, said once: the ends of an instruction, the suspension, the supplies, the
transactions. A proof about an instruction cites these and does not unfold the operations. -/

namespace Sys2Proof.Machine

@[simp] theorem returnSignal_next_iff (g : Signal) (s t : State) :
    returnSignal g s = .next t ↔ t = { s with returned := .signal g } := by
  simp only [returnSignal, State.returning, Host.Outcome.next.injEq]; exact eq_comm

@[simp] theorem complete_next_iff (g : Signal) (s t : State) :
    complete g s = .next t ↔ t = { s with pc := s.pc + 2, returned := .signal g } := by
  simp [complete, State.advance]

@[simp] theorem skipIf_next_iff (c : Bool) (s t : State) :
    skipIf c s = .next t ↔ t = { s with pc := s.pc + (if c then 4 else 2), returned := .signal .completed } := by
  simp [skipIf, State.advance]

@[simp] theorem transfer_next_iff (a : Word) (s t : State) :
    transfer a s = .next t ↔ t = { s with pc := a, returned := .signal .completed } := by
  simp [transfer, State.jump]

/-- An error signal leaves the state as it was (R236). -/
@[simp] theorem raise_next_iff (g : Signal) (s t : State) :
    raise g s = .next t ↔ t = { s with returned := .signal g } := by
  simp [raise]

/-- A call that is not accepted leaves the state as it was (R222). -/
@[simp] theorem reject_next_iff (s t : State) : reject s = .next t ↔ t = { s with returned := .rejected } := by
  simp only [reject, State.returning, Host.Outcome.next.injEq]; exact eq_comm

/-- A suspension writes only `phase` (R210). -/
@[simp] theorem suspend_next_iff (p : Phase) (g : Signal) (s t : State) :
    suspend p g s = .next t ↔ t = { s with phase := p, returned := .signal g } := by
  simp [suspend]

/-- A fetch succeeds exactly where both bytes are in memory (R54). -/
theorem State.fetch_eq_some_iff (s : State) (w : Word) :
    s.fetch = some w ↔ s.pc.toNat ≤ 0xFFE ∧ s.mem.readWord s.pc.toNat = w := by
  unfold State.fetch; split <;> simp_all

theorem State.fetch_eq_none_iff (s : State) : s.fetch = none ↔ 0xFFE < s.pc.toNat := by
  unfold State.fetch; split <;> simp_all

/-- Everything a supply can do: it completes the instruction at `pc`, it is rejected, or (in no reachable state) it faults. -/
theorem supply_cases (kind : Phase) (inRange : Bool) (value : Word → Byte) (s : State) :
    (∃ w, s.phase = kind ∧ inRange = true ∧ s.fetch = some w ∧
      supply kind inRange value s = .next (supplied w (value w) s)) ∨
    (s.phase = kind ∧ inRange = true ∧ s.fetch = none ∧ supply kind inRange value s = .fault .addressOutsideMemory) ∨
    (¬(s.phase = kind ∧ inRange = true) ∧ supply kind inRange value s = reject s) := by
  unfold supply
  by_cases h : s.phase = kind ∧ inRange = true
  · rw [if_pos h]
    cases hf : s.fetch with
    | some w => exact .inl ⟨w, h.1, h.2, rfl, rfl⟩
    | none => exact .inr (.inl ⟨h.1, h.2, rfl, rfl⟩)
  · rw [if_neg h]; exact .inr (.inr ⟨h, rfl⟩)

/-- At this machine's parameters an instruction is `exec` of it. -/
@[simp] theorem execWith_machine (i : Instr) (s : State) : execWith machineParams i s = exec i s := by cases i <;> rfl

/-- Only SHR, SHL and DRW depend on a parameter (R6). -/
theorem execWith_eq_exec (p : Params) (i : Instr) (s : State) (h1 : ∀ x y, i ≠ .shrVxVy x y) (h2 : ∀ x y, i ≠ .shlVxVy x y)
    (h3 : ∀ x y n, i ≠ .drwVxVyN x y n) : execWith p i s = exec i s := by
  cases i
  case shrVxVy x y => exact absurd rfl (h1 x y)
  case shlVxVy x y => exact absurd rfl (h2 x y)
  case drwVxVyN x y n => exact absurd rfl (h3 x y n)
  all_goals rfl

/-- Everything the `step()` transaction can do, in the order of R235. -/
theorem engineStep_cases (p : Params) (s : State) :
    (s.phase ≠ .ready ∧ engineStep p s = reject s) ∨
    (s.phase = .ready ∧ s.fetch = none ∧ engineStep p s = raise .fetchOutOfRange s) ∨
    (∃ w, s.phase = .ready ∧ s.fetch = some w ∧ decodeWordWith p.admit8XY0 w = none ∧ engineStep p s = raise .invalidInstruction s) ∨
    (∃ w i, s.phase = .ready ∧ s.fetch = some w ∧ decodeWordWith p.admit8XY0 w = some i ∧ engineStep p s = execWith p i s) := by
  unfold engineStep
  by_cases hp : s.phase ≠ .ready
  · rw [if_pos hp]; exact .inl ⟨hp, rfl⟩
  · rw [if_neg hp]
    have hp' : s.phase = .ready := Classical.not_not.mp hp
    cases hf : s.fetch with
    | none => exact .inr (.inl ⟨hp', rfl, rfl⟩)
    | some w =>
      cases hd : decodeWordWith p.admit8XY0 w with
      | none => exact .inr (.inr (.inl ⟨w, hp', rfl, hd, by simp only [hd]⟩))
      | some i => exact .inr (.inr (.inr ⟨w, i, hp', rfl, hd, by simp only [hd]⟩))

/-- A key or digit number is there exactly where the register is at most 15 (R164, R200). -/
theorem nibbleOperand_eq_some_iff (s : State) (r : Reg) (k : Fin 16) :
    nibbleOperand s r = some k ↔ (s.reg r).toNat = k.val := by
  unfold nibbleOperand
  split
  · simp [Fin.ext_iff]
  · have := k.isLt
    simp; omega

theorem nibbleOperand_eq_none_iff (s : State) (r : Reg) : nibbleOperand s r = none ↔ 15 < (s.reg r).toNat := by
  unfold nibbleOperand
  split <;> simp <;> omega

@[simp] theorem bcdDigits_length (v : Byte) : (bcdDigits v).length = 3 := rfl

/-- What `initialize` leaves of memory (R31, R260 to R262): canonical, and the image over the glyph table and the fill. -/
theorem initializeMachine_mem_wf (p : Params) (image : List Byte) (s : State) :
    (initializeMachine p image s).mem.wf = true :=
  Memory.wf_writeBytes _ (Memory.wf_ofBytes _) (by simp only [List.length_take, imageCapacity]; omega)

theorem initializeMachine_mem_read (p : Params) (image : List Byte) (s : State) (a : Nat) (ha : a < 0x1000) :
    (initializeMachine p image s).mem.read a =
      if 0x200 ≤ a ∧ a < 0x200 + min image.length 0xE00 then image.getD (a - 0x200) 0 else initByte p a := by
  have hl : (image.take imageCapacity).length = min image.length 0xE00 := by
    simp only [List.length_take, imageCapacity]; omega
  simp only [initializeMachine]
  rw [Memory.read_writeBytes _ a (Memory.wf_ofBytes _) (by rw [hl]; omega), hl,
    Memory.read_ofBytes _ ha]
  split
  · next h =>
    have h2 : a - 0x200 < 0xE00 := by omega
    simp [List.getD_eq_getElem?_getD, imageCapacity, h2]
  · rfl

/-- At this machine's parameters `initialize` lists nothing but what the image differs in. -/
theorem initializeMachine_machine (image : List Byte) (s : State) :
    initializeMachine machineParams image s =
      { State.reset with
        mem := Memory.writeBytes [] 0x200 (image.take imageCapacity)
        host := s.host
        draws := s.draws } := by
  unfold initializeMachine
  rw [show initByte machineParams = resetByte from rfl, Memory.ofBytes_resetByte]

/-- At this machine's parameters, the reset under parameters is `State.reset`. -/
theorem resetWith_machine : State.resetWith machineParams = State.reset := initializeMachine_machine [] State.reset

/-- A draw leaves memory alone and answers a next state or the bounds signal (R184). -/
theorem drawSprite_cases (mode : EdgeMode) (x y : Reg) (n : Nibble) (s : State) :
    (s.I.toNat + n.toNat ≤ 0x1000 ∧
      drawSprite mode x y n s = .next
        { s with
          fb := (spriteDrawing mode x y n s).1
          x := s.x.set 15 (flagByte (spriteDrawing mode x y n s).2)
          pc := s.pc + 2
          returned := .signal .displayChanged }) ∨
    (0x1000 < s.I.toNat + n.toNat ∧ drawSprite mode x y n s = raise (.memoryOutOfBounds .spriteRead) s) := by
  unfold drawSprite spriteInRange State.base
  by_cases h : s.I.toNat + n.toNat ≤ 0x1000
  · left; simp only [h, decide_true, if_true, true_and]; rfl
  · right; simp only [h, decide_false, Bool.false_eq_true, if_false, and_true]; omega

end Sys2Proof.Machine
end

