-- ==== Sys2Proof/Laws/PerInstr.lean ====
section
/-! SUPPORT. The family RoundTrip: under every setting of ADMIT_8XY0, the word of a well-formed instruction decodes to it (R74, R75). -/

namespace Sys2Proof.Laws.RoundTrip

/-- No bit of the instruction's encoding is dropped and none is read as another's. -/
def Statement (i : Instr) : Prop :=
  ∀ admits : Bool, i.wellFormedWith admits = true → decodeWordWith admits (encode i) = some i

theorem cls : Statement (.cls) := fun _ _ => rfl

theorem ret : Statement (.ret) := fun _ _ => rfl

theorem jpNNN (nnn : Addr) : Statement (.jpNNN nnn) := by
  intro admits _
  simp [encode, decodeWordWith]

theorem callNNN (nnn : Addr) : Statement (.callNNN nnn) := by
  intro admits _
  simp [encode, decodeWordWith]

theorem seVxNN (x : Reg) (nn : Byte) : Statement (.seVxNN x nn) := by
  intro admits _
  simp [encode, decodeWordWith]

theorem sneVxNN (x : Reg) (nn : Byte) : Statement (.sneVxNN x nn) := by
  intro admits _
  simp [encode, decodeWordWith]

theorem seVxVy (x y : Reg) : Statement (.seVxVy x y) := by
  intro admits _
  simp [encode, decodeWordWith]

theorem ldVxNN (x : Reg) (nn : Byte) : Statement (.ldVxNN x nn) := by
  intro admits _
  simp [encode, decodeWordWith]

theorem addVxNN (x : Reg) (nn : Byte) : Statement (.addVxNN x nn) := by
  intro admits _
  simp [encode, decodeWordWith]

theorem ldVxVy (x y : Reg) : Statement (.ldVxVy x y) := by
  intro admits h
  simpa [encode, decodeWordWith, decodeFamily8, Instr.wellFormedWith] using h

theorem orVxVy (x y : Reg) : Statement (.orVxVy x y) := by
  intro admits _
  simp [encode, decodeWordWith, decodeFamily8]

theorem andVxVy (x y : Reg) : Statement (.andVxVy x y) := by
  intro admits _
  simp [encode, decodeWordWith, decodeFamily8]

theorem xorVxVy (x y : Reg) : Statement (.xorVxVy x y) := by
  intro admits _
  simp [encode, decodeWordWith, decodeFamily8]

theorem addVxVy (x y : Reg) : Statement (.addVxVy x y) := by
  intro admits _
  simp [encode, decodeWordWith, decodeFamily8]

theorem subVxVy (x y : Reg) : Statement (.subVxVy x y) := by
  intro admits _
  simp [encode, decodeWordWith, decodeFamily8]

theorem shrVxVy (x y : Reg) : Statement (.shrVxVy x y) := by
  intro admits _
  simp [encode, decodeWordWith, decodeFamily8]

theorem subnVxVy (x y : Reg) : Statement (.subnVxVy x y) := by
  intro admits _
  simp [encode, decodeWordWith, decodeFamily8]

theorem shlVxVy (x y : Reg) : Statement (.shlVxVy x y) := by
  intro admits _
  simp [encode, decodeWordWith, decodeFamily8]

theorem sneVxVy (x y : Reg) : Statement (.sneVxVy x y) := by
  intro admits _
  simp [encode, decodeWordWith]

theorem ldINNN (nnn : Addr) : Statement (.ldINNN nnn) := by
  intro admits _
  simp [encode, decodeWordWith]

theorem jpV0NNN (nnn : Addr) : Statement (.jpV0NNN nnn) := by
  intro admits _
  simp [encode, decodeWordWith]

theorem rndVxNN (x : Reg) (nn : Byte) : Statement (.rndVxNN x nn) := by
  intro admits _
  simp [encode, decodeWordWith]

theorem drwVxVyN (x y : Reg) (n : Nibble) : Statement (.drwVxVyN x y n) := by
  intro admits _
  simp [encode, decodeWordWith]

theorem skpVx (x : Reg) : Statement (.skpVx x) := by
  intro admits _
  simp [encode, decodeWordWith]

theorem sknpVx (x : Reg) : Statement (.sknpVx x) := by
  intro admits _
  simp [encode, decodeWordWith]

theorem ldVxDT (x : Reg) : Statement (.ldVxDT x) := by
  intro admits _
  simp [encode, decodeWordWith, decodeFamilyF]

theorem ldVxK (x : Reg) : Statement (.ldVxK x) := by
  intro admits _
  simp [encode, decodeWordWith, decodeFamilyF]

theorem ldDTVx (x : Reg) : Statement (.ldDTVx x) := by
  intro admits _
  simp [encode, decodeWordWith, decodeFamilyF]

theorem ldSTVx (x : Reg) : Statement (.ldSTVx x) := by
  intro admits _
  simp [encode, decodeWordWith, decodeFamilyF]

theorem addIVx (x : Reg) : Statement (.addIVx x) := by
  intro admits _
  simp [encode, decodeWordWith, decodeFamilyF]

theorem ldFVx (x : Reg) : Statement (.ldFVx x) := by
  intro admits _
  simp [encode, decodeWordWith, decodeFamilyF]

theorem bcdVx (x : Reg) : Statement (.bcdVx x) := by
  intro admits _
  simp [encode, decodeWordWith, decodeFamilyF]

theorem ldMemVx (x : Reg) : Statement (.ldMemVx x) := by
  intro admits _
  simp [encode, decodeWordWith, decodeFamilyF]

theorem ldVxMem (x : Reg) : Statement (.ldVxMem x) := by
  intro admits _
  simp [encode, decodeWordWith, decodeFamilyF]

end Sys2Proof.Laws.RoundTrip
end

