-- ==== Sys2Proof/Laws/Step.lean ====
section
/-! SUPPORT. What a step is, said once: the host's oldest pending call, or the obedient host's call. -/

namespace Sys2Proof.Machine

/-- With a call pending, a step is that call, under any parameters. -/
theorem stepWith_of_call (p : Params) {s : State} {c : HostCall} {rest : List HostCall} (h : s.host = c :: rest) :
    stepWith p s = transact p c { s with host := rest } := by
  simp only [stepWith, nextTransaction, h]

/-- With no call pending, a step in Ready is the `step()` transaction. -/
theorem stepWith_of_ready (p : Params) {s : State} (h : s.host = []) (hp : s.phase = .ready) : stepWith p s = engineStep p s := by
  simp only [stepWith, nextTransaction, h, obedientCall, countDraw, hp, transact]

/-- With no call pending, a step in a suspended phase is the matching supply of a free value. -/
theorem stepWith_of_suspended (p : Params) {s : State} (h : s.host = []) (hp : s.phase ≠ .ready) :
    stepWith p s = transact p (obedientCall s) { s with draws := s.draws + 1 } := by
  simp only [stepWith, nextTransaction, h]
  cases hs : s.phase <;> simp_all [obedientCall, countDraw]

/-- The `step()` transaction on a fetched instruction is that instruction. -/
theorem engineStep_of_fetch (p : Params) {s : State} {w : Word} {i : Instr} (hp : s.phase = .ready) (hf : s.fetch = some w)
    (hd : decodeWordWith p.admit8XY0 w = some i) : engineStep p s = execWith p i s := by
  simp only [engineStep, hp, hf, hd, ne_eq, not_true_eq_false, if_false]

/-! The same of this machine's own step. -/

theorem step_of_call {s : State} {c : HostCall} {rest : List HostCall} (h : s.host = c :: rest) :
    step s = transact machineParams c { s with host := rest } := stepWith_of_call machineParams h

theorem step_of_ready {s : State} (h : s.host = []) (hp : s.phase = .ready) : step s = engineStep machineParams s :=
  stepWith_of_ready machineParams h hp

theorem step_of_suspended {s : State} (h : s.host = []) (hp : s.phase ≠ .ready) :
    step s = transact machineParams (obedientCall s) { s with draws := s.draws + 1 } :=
  stepWith_of_suspended machineParams h hp

theorem engineStep_machine_of_fetch {s : State} {w : Word} {i : Instr} (hp : s.phase = .ready) (hf : s.fetch = some w)
    (hd : decodeWord w = some i) : engineStep machineParams s = exec i s :=
  (engineStep_of_fetch machineParams hp hf hd).trans (execWith_machine i s)

theorem engineStep_machine_cases (s : State) :
    (s.phase ≠ .ready ∧ engineStep machineParams s = reject s) ∨
    (s.phase = .ready ∧ s.fetch = none ∧ engineStep machineParams s = raise .fetchOutOfRange s) ∨
    (∃ w, s.phase = .ready ∧ s.fetch = some w ∧ decodeWord w = none ∧
      engineStep machineParams s = raise .invalidInstruction s) ∨
    (∃ w i, s.phase = .ready ∧ s.fetch = some w ∧ decodeWord w = some i ∧ engineStep machineParams s = exec i s) := by
  rcases engineStep_cases machineParams s with h | h | h | ⟨w, i, hp, hf, hd, h⟩
  · exact .inl h
  · exact .inr (.inl h)
  · exact .inr (.inr (.inl h))
  · exact .inr (.inr (.inr ⟨w, i, hp, hf, hd, h.trans (execWith_machine i s)⟩))

/-- A fetch reads `pc` and memory, nothing else. -/
theorem State.fetch_congr {s t : State} (hpc : t.pc = s.pc) (hm : t.mem = s.mem) : t.fetch = s.fetch := by
  simp only [State.fetch, hpc, hm]

end Sys2Proof.Machine
end

