-- ==== Sys2Proof/Tests/Slice0.lean ====
section
/-! SUPPORT. The model's own tests. Expected results are those of spec/95_test_vectors.md (named by their case) or are worked out by
hand from the rule cited; every test is one step, one instruction or one decoding. The second part holds, for each statement of
Obligations.lean that has hypotheses, theorems named after it that meet them, one for each clause. -/

open Sys2Proof Sys2Proof.Machine Sys2Proof.Spec

namespace Sys2Proof.Tests

/-! ## Helpers -/

/-- Whether an outcome is a next state with a property. -/
def after (o : Outcome) (p : State → Bool) : Bool :=
  match o with
  | .next t => p t
  | .fault _ => false
  | .refused _ => false

/-- The reset state with `pc`, and some registers set one after another. -/
def start (pc : Word) (rs : List (Reg × Byte)) : State :=
  rs.foldl (fun s r => s.setReg r.1 r.2) { State.reset with pc := pc }

/-- One step on the word `w` placed at `pc`. -/
def run (w : Nat) (s : State) : Outcome := step (s.withFetchWord 16 w)

/-- A state with bytes put into memory from `a` on. -/
def poke (a : Nat) (vs : List Byte) (s : State) : State := { s with mem := s.mem.writeBytes a vs }

/-- A state with a call of the host pending. -/
def calling (c : HostCall) (s : State) : State := { s with host := [c] }

/-- The engine in a phase, with the word `w` at `pc` and a call of the host pending. -/
def suspended (p : Phase) (w : Word) (c : HostCall) (s : State) : State :=
  { s with phase := p, host := [c], mem := s.mem.writeWord s.pc.toNat w }

/-- The pixels of one list are set and those of another are not. -/
def shows (fb : Framebuffer) (on off : List (Fin 64 × Fin 32)) : Bool :=
  on.all (fun p => fb.pixel p.1 p.2) && off.all (fun p => !fb.pixel p.1 p.2)

/-- A framebuffer with the pixels of a list set. -/
def screen (ps : List (Fin 64 × Fin 32)) : Framebuffer :=
  ps.foldl (fun fb p => fb.setPixel p.1 p.2 true) Framebuffer.blank

/-! ## Well-formedness: the one check refuses its ill-formed term (R76) -/

theorem test_wellFormed_refuses_8xy0 : (Instr.ldVxVy 1 4).wellFormedWith false = false := by decide

theorem test_wellFormed_accepts_8xy0 : (Instr.ldVxVy 1 4).wellFormed = true := by decide

/-! ## Decoding: words written out bit by bit, `OP X Y N` (R71, R74), one for each constructor -/

theorem test_decode_control :
    decodeWord 0b0000_0000_1110_1110 = some .ret ∧
    decodeWord 0b0001_1010_1011_1100 = some (.jpNNN 0xABC) ∧
    decodeWord 0b0010_0010_0000_1010 = some (.callNNN 0x20A) ∧
    decodeWord 0b0011_0011_0010_1010 = some (.seVxNN 3 0x2A) ∧
    decodeWord 0b0100_0011_0010_1010 = some (.sneVxNN 3 0x2A) ∧
    decodeWord 0b0101_0001_0010_0000 = some (.seVxVy 1 2) ∧
    decodeWord 0b1001_0001_0010_0000 = some (.sneVxVy 1 2) ∧
    decodeWord 0b1011_0011_0000_0001 = some (.jpV0NNN 0x301) := by decide

theorem test_decode_load_and_alu :
    decodeWord 0b0110_1010_0111_1111 = some (.ldVxNN 10 0x7F) ∧
    decodeWord 0b0111_0010_0000_0011 = some (.addVxNN 2 0x03) ∧
    decodeWord 0b1000_0001_0100_0000 = some (.ldVxVy 1 4) ∧
    decodeWord 0b1000_0001_0010_0001 = some (.orVxVy 1 2) ∧
    decodeWord 0b1000_0001_0010_0010 = some (.andVxVy 1 2) ∧
    decodeWord 0b1000_0001_0010_0011 = some (.xorVxVy 1 2) := by decide

theorem test_decode_alu_with_flag :
    decodeWord 0b1000_1111_0001_0100 = some (.addVxVy 15 1) ∧
    decodeWord 0b1000_0001_0010_0101 = some (.subVxVy 1 2) ∧
    decodeWord 0b1000_0011_0010_0110 = some (.shrVxVy 3 2) ∧
    decodeWord 0b1000_0001_0010_0111 = some (.subnVxVy 1 2) ∧
    decodeWord 0b1000_0011_0010_1110 = some (.shlVxVy 3 2) := by decide

theorem test_decode_index_and_memory :
    decodeWord 0b1010_0010_1111_0000 = some (.ldINNN 0x2F0) ∧
    decodeWord 0b1111_0100_0001_1110 = some (.addIVx 4) ∧
    decodeWord 0b1111_0010_0010_1001 = some (.ldFVx 2) ∧
    decodeWord 0b1111_0000_0011_0011 = some (.bcdVx 0) ∧
    decodeWord 0b1111_0010_0101_0101 = some (.ldMemVx 2) ∧
    decodeWord 0b1111_1111_0110_0101 = some (.ldVxMem 15) := by decide

theorem test_decode_display_keypad_timers :
    decodeWord 0b0000_0000_1110_0000 = some .cls ∧
    decodeWord 0b1101_0000_0001_0010 = some (.drwVxVyN 0 1 2) ∧
    decodeWord 0b1110_0001_1001_1110 = some (.skpVx 1) ∧
    decodeWord 0b1110_0001_1010_0001 = some (.sknpVx 1) ∧
    decodeWord 0b1111_0001_0001_0101 = some (.ldDTVx 1) ∧
    decodeWord 0b1111_0010_0001_1000 = some (.ldSTVx 2) := by decide

theorem test_decode_deferred :
    decodeWord 0b1100_0000_0000_1111 = some (.rndVxNN 0 0x0F) ∧
    decodeWord 0b1111_0001_0000_1010 = some (.ldVxK 1) ∧
    decodeWord 0b1111_0010_0000_0111 = some (.ldVxDT 2) := by decide

/-- Section 2.1's invalid words. -/
theorem test_decode_invalid :
    ([0x0000, 0x0123, 0x5121, 0x9121, 0x8128, 0x812F, 0xE0A2, 0xF0FF] : List Word).all
      (fun w => decodeWord w == none) = true ∧ decodeWordWith false 0x8140 = none := by decide

/-- Big-endian: the first byte in memory is the high one (R51). -/
theorem test_decode_bytes :
    decode [0xF2, 0x65, 0x12, 0x08] = .ok (.ldVxMem 2, [0x12, 0x08]) ∧
    decode [0xF2] = .error .truncated ∧ decode [0xF0, 0xFF, 0x00] = .error (.invalidWord 0xF0FF) := by decide

theorem test_encode_bytes : encodeBytes (.drwVxVyN 0 1 2) = [0xD0, 0x12] ∧ encode (.shlVxVy 3 2) = 0x832E := by decide

theorem test_decodeTableWord : decodeTableWord 16 0x8124 = some (.addVxVy 1 2) ∧ decodeTableWord 16 0x5121 = none := by decide

/-! ## Fetch and invalid words (section 2.1) -/

theorem test_fetch_at_last_legal_address :
    after (run 0x1234 (start 0xFFE [])) (fun t => t.pc == 0x0234 && t.returned == .signal .completed) = true := by decide

theorem test_fetch_second_byte_out_of_range :
    after (step { State.reset with pc := 0xFFF })
      (fun t => t.pc == 0xFFF && t.returned == .signal .fetchOutOfRange) = true := by decide

/-- Source example E8. -/
theorem test_invalid_word :
    after (step State.reset) (fun t => t == { State.reset with returned := .signal .invalidInstruction }) = true := by decide

/-! ## Control transfer (section 2.2) -/

theorem test_ret :
    after (run 0x00EE { start 0x300 [] with sp := 16, stack := Vector.ofFn fun k => BitVec.ofNat 16 (0x200 + 2 * k.val) })
      (fun t => t.pc == 0x0220 && t.sp == 15) = true := by decide

theorem test_ret_empty_stack :
    after (run 0x00EE (start 0x20C [])) (fun t => t.pc == 0x20C && t.returned == .signal .stackUnderflow) = true := by decide

theorem test_jp_odd : after (run 0x1ABD (start 0x200 [])) (fun t => t.pc == 0x0ABD) = true := by decide

theorem test_call_last_slot :
    after (run 0x2400 { start 0x204 [] with sp := 15 })
      (fun t => t.stack[15] == 0x0204 && t.sp == 16 && t.pc == 0x0400) = true := by decide

theorem test_call_full :
    after (run 0x2400 { start 0x204 [] with sp := 16 })
      (fun t => t.pc == 0x204 && t.sp == 16 && t.returned == .signal .stackOverflow) = true := by decide

theorem test_se_immediate :
    after (run 0x332A (start 0x200 [(3, 0x2A)])) (fun t => t.pc == 0x0204) = true ∧
    after (run 0x332A (start 0x200 [(3, 0x2B)])) (fun t => t.pc == 0x0202) = true := by decide

theorem test_sne_immediate :
    after (run 0x432A (start 0x200 [(3, 0x2A)])) (fun t => t.pc == 0x0202) = true ∧
    after (run 0x432A (start 0x200 [])) (fun t => t.pc == 0x0204) = true := by decide

theorem test_se_register :
    after (run 0x5120 (start 0x300 [(1, 7), (2, 7)])) (fun t => t.pc == 0x0304) = true ∧
    after (run 0x5120 (start 0x300 [(1, 7), (2, 8)])) (fun t => t.pc == 0x0302) = true := by decide

theorem test_sne_register :
    after (run 0x9120 (start 0x300 [(1, 7), (2, 8)])) (fun t => t.pc == 0x0304) = true ∧
    after (run 0x9120 (start 0x300 [(1, 7), (2, 7)])) (fun t => t.pc == 0x0302) = true := by decide

theorem test_skip_past_end_of_memory :
    after (run 0x3000 (start 0xFFE [])) (fun t => t.pc == 0x1002) = true := by decide

theorem test_jp_v0_maximum : after (run 0xBFFF (start 0x200 [(0, 0xFF)])) (fun t => t.pc == 0x10FE) = true := by decide

/-! ## Loads and ALU (section 2.3) -/

theorem test_ld_immediate : after (run 0x6F7F (start 0x200 [])) (fun t => t.reg 15 == 0x7F && t.pc == 0x202) = true := by decide

theorem test_add_immediate_wraps :
    after (run 0x7203 (start 0x200 [(2, 0xFE)])) (fun t => t.reg 2 == 0x01 && t.reg 15 == 0) = true := by decide

theorem test_ld_register :
    after (run 0x8140 (start 0x200 [(4, 0x33), (15, 1)])) (fun t => t.reg 1 == 0x33 && t.reg 4 == 0x33 && t.reg 15 == 1) = true := by
  decide

theorem test_or :
    after (run 0x8121 (start 0x200 [(1, 0x0F), (2, 0xF0), (15, 1)])) (fun t => t.reg 1 == 0xFF && t.reg 15 == 1) = true := by decide

theorem test_and :
    after (run 0x8122 (start 0x200 [(1, 0x3C), (2, 0x0F), (15, 1)])) (fun t => t.reg 1 == 0x0C && t.reg 15 == 1) = true := by decide

theorem test_xor :
    after (run 0x8123 (start 0x200 [(1, 0xFF), (2, 0x0F), (15, 1)])) (fun t => t.reg 1 == 0xF0 && t.reg 15 == 1) = true := by decide

/-- Source example E6. -/
theorem test_add_carry :
    after (run 0x8124 (start 0x200 [(1, 0xFF), (2, 0x02)])) (fun t => t.reg 1 == 0x01 && t.reg 15 == 1) = true := by decide

theorem test_add_flag_wins :
    after (run 0x8F14 (start 0x200 [(15, 0xF0), (1, 0x20)])) (fun t => t.reg 15 == 0x01) = true ∧
    after (run 0x81F4 (start 0x200 [(15, 0x05), (1, 0x20)])) (fun t => t.reg 1 == 0x25 && t.reg 15 == 0x00) = true := by decide

theorem test_sub_borrow :
    after (run 0x8125 (start 0x200 [(1, 5), (2, 7), (15, 1)])) (fun t => t.reg 1 == 0xFE && t.reg 15 == 0) = true := by decide

/-- Source example E11. -/
theorem test_sub_equal :
    after (run 0x8125 (start 0x200 [(1, 7), (2, 7)])) (fun t => t.reg 1 == 0x00 && t.reg 15 == 1) = true := by decide

theorem test_subn :
    after (run 0x8127 (start 0x200 [(1, 5), (2, 7)])) (fun t => t.reg 1 == 0x02 && t.reg 15 == 1) = true ∧
    after (run 0x8127 (start 0x200 [(1, 7), (2, 5), (15, 1)])) (fun t => t.reg 1 == 0xFE && t.reg 15 == 0) = true := by decide

theorem test_shr_both_sources :
    after (shiftRight .x 3 0 (start 0x200 [(3, 0x05), (0, 0x08)])) (fun t => t.reg 3 == 0x02 && t.reg 15 == 1) = true ∧
    after (shiftRight .y 3 0 (start 0x200 [(3, 0x05), (0, 0x08), (15, 1)]))
      (fun t => t.reg 3 == 0x04 && t.reg 15 == 0 && t.reg 0 == 0x08) = true := by decide

theorem test_shl_both_sources :
    after (shiftLeft .x 3 0 (start 0x200 [(3, 0x81)])) (fun t => t.reg 3 == 0x02 && t.reg 15 == 1) = true ∧
    after (shiftLeft .y 3 2 (start 0x200 [(3, 0x40), (2, 0xC1)])) (fun t => t.reg 3 == 0x82 && t.reg 15 == 1) = true := by decide

/-- The step of a SHR word is the shift of this machine's source. -/
theorem test_shr_runs : run 0x8F06 (start 0x200 [(15, 0x03)]) =
    shiftRight shiftSource 15 0 ((start 0x200 [(15, 0x03)]).withFetchWord 16 0x8F06) := rfl

/-! ## Index register and memory (section 2.4) -/

theorem test_ld_i : after (run 0xA2F0 { start 0x200 [] with I := 0xFFFF }) (fun t => t.I == 0x02F0) = true := by decide

theorem test_add_i :
    after (run 0xF41E { start 0x200 [(4, 5)] with I := 0x0FFE }) (fun t => t.I == 0x1003 && t.reg 15 == 0) = true ∧
    after (run 0xF41E { start 0x200 [(4, 2)] with I := 0xFFFF }) (fun t => t.I == 0x0001 && t.reg 15 == 0) = true := by decide

theorem test_ld_f :
    after (run 0xF229 (start 0x200 [(2, 0x0F)])) (fun t => t.I == 0x004B && t.pc == 0x202) = true ∧
    after (run 0xF229 { start 0x200 [(2, 0x10)] with I := 0x0123 })
      (fun t => t.I == 0x0123 && t.pc == 0x200 && t.returned == .signal .badFontDigit) = true := by decide

/-- Source example E7. -/
theorem test_bcd_157 :
    after (run 0xF033 (poke 0x300 [0xAA, 0xAA, 0xAA, 0xAA] { start 0x200 [(0, 157)] with I := 0x300 }))
      (fun t => t.mem.read 0x300 == 1 && t.mem.read 0x301 == 5 && t.mem.read 0x302 == 7 && t.mem.read 0x303 == 0xAA
        && t.I == 0x300) = true := by decide

theorem test_bcd_one_too_far :
    after (run 0xF033 { start 0x200 [(0, 255)] with I := 0xFFE })
      (fun t => t.returned == .signal (.memoryOutOfBounds .bcdWrite) && t.mem.read 0xFFE == 0 && t.pc == 0x200) = true := by decide

theorem test_dump :
    after (run 0xF255 { start 0x200 [(0, 0x11), (1, 0x22), (2, 0x33), (3, 0x44)] with I := 0x400 })
      (fun t => t.mem.read 0x400 == 0x11 && t.mem.read 0x401 == 0x22 && t.mem.read 0x402 == 0x33 && t.mem.read 0x403 == 0
        && t.I == 0x400) = true := by decide

theorem test_dump_one_too_far :
    after (run 0xF255 { start 0x200 [(0, 0x11), (1, 0x22), (2, 0x33)] with I := 0xFFE })
      (fun t => t.returned == .signal (.memoryOutOfBounds .registerTransfer) && t.mem.read 0xFFE == 0) = true := by decide

theorem test_load :
    after (run 0xF265 (poke 0x300 [1, 5, 7, 9] { start 0x200 [(3, 0x99)] with I := 0x300 }))
      (fun t => t.reg 0 == 1 && t.reg 1 == 5 && t.reg 2 == 7 && t.reg 3 == 0x99 && t.I == 0x300) = true := by decide

theorem test_load_of_glyph_table :
    after (run 0xFF65 (start 0x200 []))
      (fun t => t.x.toList == [0xF0, 0x90, 0x90, 0x90, 0xF0, 0x20, 0x60, 0x20, 0x20, 0x70, 0xF0, 0x10, 0xF0, 0x80, 0xF0, 0xF0])
      = true := by decide

/-! ## Display (section 2.5) -/

theorem test_cls :
    after (run 0x00E0 { start 0x200 [] with fb := screen [(0, 0), (63, 31)] })
      (fun t => shows t.fb [] [(0, 0), (63, 31), (31, 15)] && t.returned == .signal .displayChanged && t.pc == 0x202) = true := by
  decide +kernel

/-- "DRW partly overlapping". -/
theorem test_drw_overlapping :
    after (drawSprite .clip 0 1 1
      (poke 0x20E [0xF0] { start 0x200 [(0, 10), (1, 5)] with I := 0x20E, fb := screen [(13, 5), (14, 5)] }))
      (fun t => shows t.fb [(10, 5), (11, 5), (12, 5), (14, 5)] [(9, 5), (13, 5), (15, 5), (10, 6)] && t.reg 15 == 1) = true := by decide +kernel

/-- "DRW at the corner, clip". -/
theorem test_drw_corner_clip :
    after (drawSprite .clip 0 1 2 (poke 0x300 [0xFF, 0xFF] { start 0x200 [(0, 62), (1, 31)] with I := 0x300 }))
      (fun t => shows t.fb [(62, 31), (63, 31)] [(61, 31), (0, 31), (62, 0), (0, 0)] && t.reg 15 == 0) = true := by decide +kernel

/-- "DRW at the corner, wrap". -/
theorem test_drw_corner_wrap :
    after (drawSprite .wrap 0 1 2 (poke 0x300 [0xFF, 0xFF] { start 0x200 [(0, 62), (1, 31)] with I := 0x300 }))
      (fun t => shows t.fb [(62, 31), (63, 31), (0, 31), (5, 31), (62, 0), (63, 0), (0, 0), (5, 0)]
        [(61, 31), (6, 31), (61, 0), (6, 0), (0, 1)] && t.reg 15 == 0) = true := by decide +kernel

/-- "DRW two rows, bit order", pixel by pixel. -/
theorem test_drw_bit_order :
    after (drawSprite .wrap 0 1 2 (poke 0x300 [0x81, 0x42] { start 0x200 [] with I := 0x300 }))
      (fun t => shows t.fb [(0, 0), (7, 0), (1, 1), (6, 1)] [(1, 0), (6, 0), (0, 1), (7, 1), (8, 0), (0, 2)]) = true := by decide +kernel

/-- "DRW `N = 0`, `I = 0x1001`" and "DRW sprite runs off memory", as steps. -/
theorem test_drw_out_of_bounds :
    after (run 0xD010 { start 0x200 [(15, 1)] with I := 0x1001 })
      (fun t => t.returned == .signal (.memoryOutOfBounds .spriteRead) && t.reg 15 == 1 && t.pc == 0x200) = true ∧
    after (run 0xD012 { start 0x200 [(15, 1)] with I := 0xFFF })
      (fun t => t.returned == .signal (.memoryOutOfBounds .spriteRead) && t.reg 15 == 1 && t.pc == 0x200) = true := by decide

/-! ## Keypad and timers (section 2.6) -/

theorem test_skp :
    after (run 0xE19E { start 0x208 [(1, 0x0B)] with keys := 0x0800 }) (fun t => t.pc == 0x020C) = true ∧
    after (run 0xE19E { start 0x208 [(1, 0x0B)] with keys := 0xF7FF }) (fun t => t.pc == 0x020A) = true := by decide

theorem test_skp_key_16 :
    after (run 0xE19E { start 0x208 [(1, 0x10)] with keys := 0xFFFF })
      (fun t => t.pc == 0x208 && t.returned == .signal .badKeyIndex) = true := by decide

theorem test_sknp :
    after (run 0xE1A1 { start 0x208 [(1, 0x0B)] with keys := 0x0800 }) (fun t => t.pc == 0x020A) = true ∧
    after (run 0xE1A1 (start 0x208 [(1, 0x0B)])) (fun t => t.pc == 0x020C) = true := by decide

theorem test_sknp_key_255 :
    after (run 0xE1A1 (start 0x208 [(1, 0xFF)]))
      (fun t => t.pc == 0x208 && t.returned == .signal .badKeyIndex) = true := by decide

theorem test_ld_dt :
    after (run 0xF115 (start 0x204 [(1, 0x0B)]))
      (fun t => t.dt == 0x0B && t.pc == 0x206 && t.returned == .signal (.timerWritten .delay)) = true := by decide

theorem test_ld_st :
    after (run 0xF218 (start 0x200 [(2, 0x3C)]))
      (fun t => t.st == 0x3C && t.dt == 0 && t.returned == .signal (.timerWritten .sound)) = true := by decide

/-! ## Deferred completion and the host's transactions (section 2.7) -/

theorem test_rnd_suspends :
    after (run 0xC00F (start 0x200 []))
      (fun t => t.phase == .suspRandom && t.pc == 0x200 && t.reg 0 == 0 && t.returned == .signal .needsRandom) = true := by decide

/-- Source example E9. -/
theorem test_rnd_supplied :
    after (step (suspended .suspRandom 0xC00F (.supplyRandom 0xA7) (start 0x200 [])))
      (fun t => t.reg 0 == 0x07 && t.pc == 0x202 && t.phase == .ready) = true := by decide

theorem test_key_suspends :
    after (run 0xF10A (start 0x202 [])) (fun t => t.phase == .suspKey && t.returned == .signal .needsKey) = true := by decide

theorem test_key_supplied :
    after (step (suspended .suspKey 0xF10A (.supplyKey 0xB) (start 0x202 [])))
      (fun t => t.reg 1 == 0x0B && t.pc == 0x204 && t.phase == .ready && t.keys == 0) = true := by decide

theorem test_delay_suspends :
    after (run 0xF207 { start 0x206 [] with dt := 0x0B })
      (fun t => t.phase == .suspDelay && t.reg 2 == 0 && t.returned == .signal .needsDelay) = true := by decide

theorem test_delay_supplied :
    after (step (suspended .suspDelay 0xF207 (.supplyDelay 9) { start 0x206 [] with dt := 0x0B }))
      (fun t => t.reg 2 == 0x09 && t.pc == 0x208 && t.phase == .ready && t.dt == 0x0B) = true := by decide

theorem test_wrong_supply :
    after (step (suspended .suspRandom 0xC00F (.supplyKey 3) (start 0x200 [])))
      (fun t => t.returned == .rejected && t.phase == .suspRandom && t.pc == 0x200 && t.reg 0 == 0) = true := by decide

theorem test_key_out_of_range :
    after (step (suspended .suspKey 0xF10A (.supplyKey 16) (start 0x202 [])))
      (fun t => t.returned == .rejected && t.phase == .suspKey && t.reg 1 == 0) = true := by decide

theorem test_set_keys_while_suspended :
    after (step (suspended .suspKey 0xF10A (.setKeys 0x0002) (start 0x202 [])))
      (fun t => t.keys == 0x0002 && t.phase == .suspKey) = true := by decide

theorem test_initialize_while_suspended :
    after (step (suspended .suspKey 0xF10A (.initializeWith [0x60, 0x05]) (start 0x202 [(1, 9)])))
      (fun t => t.phase == .ready && t.pc == 0x200 && t.reg 1 == 0 && t.mem == [(0x200, 0x60), (0x201, 0x05)]) = true := by
  decide +kernel

theorem test_host_reads_keys :
    after (step (calling .readKeys { State.reset with keys := 0x0800 })) (fun t => t.returned == .keyMask 0x0800) = true := by decide

theorem test_host_reads_framebuffer :
    step (calling .readFramebuffer State.reset) = .next { State.reset with returned := .framebuffer State.reset.fb } := rfl

/-! ## Other parameters (R6), and the ends of a run (R275) -/

/-- Parameters other than this machine's in ADMIT_8XY0, FONT (its first byte) and MEM_INIT_FILL (at 0x300). -/
def otherParams : Params :=
  { machineParams with
    drawEdgeMode := .wrap
    shiftSource := .y
    admit8XY0 := false
    font := fontTable.set 0 0x11
    memInitFill := fun a => if a = 0x300 then 7 else 0 }

/-- R260: FONT in 0x000 to 0x04F and MEM_INIT_FILL elsewhere, whatever they are. -/
theorem test_initialize_under_other_parameters :
    (State.resetWith otherParams).mem = [(0x000, 0x11), (0x300, 7)] ∧
    after (stepWith otherParams (calling (.initializeWith [0x60]) State.reset))
      (fun t => t.mem == [(0x000, 0x11), (0x200, 0x60), (0x300, 7)] && t.pc == 0x200) = true := by decide +kernel

/-- "8XY0 with `ADMIT_8XY0 = false`" (section 2.1). -/
theorem test_8xy0_not_admitted :
    after (stepWith otherParams ((start 0x200 [(4, 0x33)]).withFetchWord 16 0x8140))
      (fun t => t.returned == .signal .invalidInstruction && t.reg 1 == 0 && t.pc == 0x200) = true := by decide

/-- "SHR, `SHIFT_SOURCE = Y`" (section 2.3), as a step. -/
theorem test_shr_under_source_y :
    after (stepWith otherParams ((start 0x200 [(3, 0x05), (0, 0x08), (15, 1)]).withFetchWord 16 0x8306))
      (fun t => t.reg 3 == 0x04 && t.reg 15 == 0 && t.pc == 0x202) = true := by decide

/-- The three ends; a jump to itself at an odd address is one, a jump elsewhere is none (R275, R106). -/
theorem test_ends :
    State.reset.runEnd machineParams = some .error ∧
    ((start 0x200 []).withFetchWord 16 0x1200).runEnd machineParams = some .jumpToSelf ∧
    ((start 0x201 []).withFetchWord 16 0x1201).runEnd machineParams = some .jumpToSelf ∧
    ((start 0x200 []).withFetchWord 16 0x1202).runEnd machineParams = none ∧
    { State.reset with phase := .suspKey }.runEnd machineParams = some .suspension := by decide

/-! ## Witnesses: states and operands that meet the hypotheses of the statements, clause by clause, at the boundary values -/

/-- A state whose next step in Ready fetches `w` at `pc`, with calls of the host pending. -/
def ready (w : Word) (calls : List HostCall) (s : State) : State :=
  { s with host := calls, mem := s.mem.writeWord s.pc.toNat w }

theorem test_witness_DecodeOfEncodedInstruction :
    (Instr.ldVxVy 15 0).wellFormedWith true = true ∧ (Instr.ldVxMem 15).wellFormedWith false = true ∧
    (Instr.jpNNN 0xFFF).wellFormed = true := by decide

theorem test_witness_EncodeOfDecodedWord :
    decodeWordWith true 0x8140 = some (.ldVxVy 1 4) ∧ decodeWordWith false 0xD0F0 = some (.drwVxVyN 0 15 0) := by decide

theorem test_witness_OpcodeMapIsExact :
    decodeWordWith true 0x00E0 = some .cls ∧ ((0x8000, 0xF00F) : Word × Word) ∈ rows ∧
    matchesRow 0x8FF0 (0x8000, 0xF00F) = true ∧ matchesRow 0x8FF1 (0x8000, 0xF00F) = false := by decide

theorem test_witness_StepRunsDecodedInstruction_no_call :
    (ready 0x1234 [] (start 0xFFE [])).phase = .ready ∧ (ready 0x1234 [] (start 0xFFE [])).pc.toNat ≤ 0xFFE ∧
    decode [(ready 0x1234 [] (start 0xFFE [])).mem.read 0xFFE, (ready 0x1234 [] (start 0xFFE [])).mem.read 0xFFF] =
      .ok (.jpNNN 0x234, []) ∧
    (ready 0x1234 [] (start 0xFFE [])).host = [] := by decide

theorem test_witness_StepRunsDecodedInstruction_call :
    (ready 0x00EE [.step, .readKeys] (start 0x201 [])).phase = .ready ∧
    decode [(ready 0x00EE [.step, .readKeys] (start 0x201 [])).mem.read 0x201,
      (ready 0x00EE [.step, .readKeys] (start 0x201 [])).mem.read 0x202] = .ok (.ret, []) ∧
    (ready 0x00EE [.step, .readKeys] (start 0x201 [])).host = .step :: [.readKeys] := by decide

theorem test_witness_StepChecksBeforeExecution_phase :
    (calling .step { State.reset with phase := .suspKey, pc := 0xFFFF }).host = [.step] ∧
    (calling .step { State.reset with phase := .suspKey, pc := 0xFFFF }).phase ≠ .ready := by decide

theorem test_witness_StepChecksBeforeExecution_fetch :
    (calling .step { State.reset with pc := 0xFFF }).host = [.step] ∧
    (calling .step { State.reset with pc := 0xFFF }).phase = .ready ∧
    (calling .step { State.reset with pc := 0xFFF }).pc.toNat > 0xFFE := by decide

theorem test_witness_StepChecksBeforeExecution_decode :
    (calling .step { State.reset with pc := 0xFFE }).host = [.step] ∧
    (calling .step { State.reset with pc := 0xFFE }).phase = .ready ∧
    (calling .step { State.reset with pc := 0xFFE }).pc.toNat ≤ 0xFFE ∧
    decodeWord (wordOfBytes ((calling .step { State.reset with pc := 0xFFE }).mem.read 0xFFE)
      ((calling .step { State.reset with pc := 0xFFE }).mem.read 0xFFF)) = none := by decide

theorem test_witness_PlacedWordIsRun :
    State.reset.mem.wf = true ∧ { State.reset with pc := 0xFFFF }.mem.wf = true ∧
    decodeTableWord 16 0xFF65 = some (.ldVxMem 15) := by decide

theorem test_witness_RetPopsTheStack :
    State.reset.sp = 0 ∧ { State.reset with sp := 1 }.sp = (0 : Fin 16).succ ∧
    { State.reset with sp := 16 }.sp = (15 : Fin 16).succ := by decide

theorem test_witness_CallPushesItsOwnAddress :
    { State.reset with sp := 16 }.sp = 16 ∧ State.reset.sp = (0 : Fin 16).castSucc ∧
    { State.reset with sp := 15 }.sp = (15 : Fin 16).castSucc := by decide

theorem test_witness_RegisterSkips : (1 : Nibble) ≠ 0 ∧ (15 : Nibble) ≠ 0 := by decide

theorem test_witness_Shifts :
    (0x81 : Byte) = (if ShiftSource.x = .x then (start 0x200 [(3, 0x81)]).reg 3 else (start 0x200 [(3, 0x81)]).reg 2) ∧
    (0x40 : Byte) = (if ShiftSource.y = .x then (start 0x200 [(2, 0x40)]).reg 3 else (start 0x200 [(2, 0x40)]).reg 2) := by decide

/-- This machine's own SHIFT_SOURCE is open, so its clause is met by the value either source gives: here both read one register. -/
theorem test_witness_ShiftOfThisMachine :
    (start 0x200 [(3, 0x81)]).reg 3 =
      (if shiftSource = .x then (start 0x200 [(3, 0x81)]).reg 3 else (start 0x200 [(3, 0x81)]).reg 3) := (ite_self _).symm

theorem test_witness_FlagWinsOverResult :
    (14 : Reg) ≠ 15 ∧
    (0x81 : Byte) = (if ShiftSource.x = .x then (start 0x200 [(15, 0x81)]).reg 15 else (start 0x200 [(15, 0x81)]).reg 2) := by
  decide

theorem test_witness_ArithmeticLawsOfTheFlag :
    (1 : Reg) ≠ 15 ∧ (∃ t, exec (.addVxVy 1 15) (start 0x200 [(1, 0xFF), (15, 1)]) = .next t) ∧
    (∃ t, exec (.subVxVy 1 2) State.reset = .next t) ∧ (∃ t, exec (.subnVxVy 1 1) State.reset = .next t) ∧
    (∃ t, shiftRight .x 1 2 (start 0x200 [(1, 0x81)]) = .next t) ∧ (∃ t, shiftLeft .y 1 15 (start 0x200 [(15, 0x81)]) = .next t) :=
  ⟨by decide, ⟨_, rfl⟩, ⟨_, rfl⟩, ⟨_, rfl⟩, ⟨_, rfl⟩, ⟨_, rfl⟩⟩

theorem test_witness_FontAddress :
    ((start 0x200 [(2, 15)]).reg 2).toNat ≤ 15 ∧ ((start 0x200 [(2, 16)]).reg 2).toNat > 15 := by decide

theorem test_witness_BcdStoresThreeDigits :
    State.reset.mem.wf = true ∧ { State.reset with I := 0xFFD }.I.toNat + 2 ≤ 0xFFF ∧
    { State.reset with I := 0xFFE }.I.toNat + 2 > 0xFFF ∧ { State.reset with I := 0xFFFF }.I.toNat + 2 > 0xFFF := by decide

theorem test_witness_RegisterDump_and_RegisterLoad :
    State.reset.mem.wf = true ∧ { State.reset with I := 0xFFF }.I.toNat + (0 : Reg).val ≤ 0xFFF ∧
    { State.reset with I := 0xFF0 }.I.toNat + (15 : Reg).val ≤ 0xFFF ∧
    { State.reset with I := 0x1000 }.I.toNat + (0 : Reg).val > 0xFFF ∧
    { State.reset with I := 0xFF1 }.I.toNat + (15 : Reg).val > 0xFFF := by decide

theorem test_witness_StoreIsSeenByNextFetch :
    { State.reset with pc := 0xFFC, I := 0xFFE }.mem.wf = true ∧
    { State.reset with pc := 0xFFC, I := 0xFFE }.pc.toNat + 2 = { State.reset with pc := 0xFFC, I := 0xFFE }.I.toNat ∧
    1 ≤ (1 : Reg).val ∧ { State.reset with pc := 0xFFC, I := 0xFFE }.I.toNat + (1 : Reg).val ≤ 0xFFF ∧
    ∃ t, exec (.ldMemVx 1) { State.reset with pc := 0xFFC, I := 0xFFE } = .next t :=
  ⟨by decide, by decide, by decide, by decide, ⟨_, rfl⟩⟩

theorem test_witness_DrawIsXorWithMask :
    { State.reset with I := 0xFFF }.I.toNat + (1 : Nibble).toNat ≤ 0x1000 ∧
    { State.reset with I := 0x1000 }.I.toNat + (0 : Nibble).toNat ≤ 0x1000 ∧
    { State.reset with I := 0x1001 }.I.toNat + (0 : Nibble).toNat > 0x1000 ∧
    { State.reset with I := 0xFFF }.I.toNat + (2 : Nibble).toNat > 0x1000 := by decide

theorem test_witness_DrawCompletes : { State.reset with I := 0xFF1 }.I.toNat + (15 : Nibble).toNat ≤ 0x1000 := by decide

theorem test_witness_DrawTwiceRestores (mode : EdgeMode) :
    (0 : Reg) ≠ 15 ∧ (1 : Reg) ≠ 15 ∧ State.reset.I.toNat + (5 : Nibble).toNat ≤ 0x1000 ∧
    ∃ t u, drawSprite mode 0 1 5 State.reset = .next t ∧ drawSprite mode 0 1 5 t = .next u :=
  ⟨by decide, by decide, by decide, _, _, rfl, rfl⟩

theorem test_witness_EmptyMaskDrawsNothing :
    { State.reset with I := 0x1000 }.I.toNat + (0 : Nibble).toNat ≤ 0x1000 ∧ (0 : Nibble) = 0 ∧
    ((start 0x200 [(0, 64)]).reg 0).toNat ≥ 64 ∧ ((start 0x200 [(1, 32)]).reg 1).toNat ≥ 32 := by decide

/-- The mask of a sprite of no rows is empty: the first clause's hypothesis. -/
theorem test_witness_EmptyMaskDrawsNothing_mask (px : Fin 64) (py : Fin 32) : ¬inMask .clip 0 1 0 State.reset px py := by
  rintro ⟨r, _, hr, _⟩
  exact absurd hr (Nat.not_lt_zero r)

theorem test_witness_EdgeModesAgreeOnScreen :
    ((start 0x200 [(0, 56), (1, 17)]).reg 0).toNat ≤ 56 ∧
    ((start 0x200 [(0, 56), (1, 17)]).reg 1).toNat + (15 : Nibble).toNat ≤ 32 := by decide

theorem test_witness_KeySkips :
    ((start 0x200 [(1, 15)]).reg 1).toNat ≤ 15 ∧ ((start 0x200 [(1, 16)]).reg 1).toNat > 15 := by decide

theorem test_witness_SuppliesCompleteTheInstruction_random :
    (suspended .suspRandom 0xCF5A (.supplyRandom 255) (start 0xFFE [])).pc.toNat ≤ 0xFFE ∧
    (0xCF5A : Word).toNat = ((suspended .suspRandom 0xCF5A (.supplyRandom 255) (start 0xFFE [])).mem.read 0xFFE).toNat * 256 +
      ((suspended .suspRandom 0xCF5A (.supplyRandom 255) (start 0xFFE [])).mem.read 0xFFF).toNat ∧
    (15 : Reg).val = (0xCF5A : Word).toNat / 256 % 16 ∧
    (suspended .suspRandom 0xCF5A (.supplyRandom 255) (start 0xFFE [])).host = [.supplyRandom 255] ∧
    (suspended .suspRandom 0xCF5A (.supplyRandom 255) (start 0xFFE [])).phase = .suspRandom ∧ 255 ≤ 255 := by decide

theorem test_witness_SuppliesCompleteTheInstruction_key :
    (suspended .suspKey 0xF10A (.supplyKey 15) (start 0x202 [])).pc.toNat ≤ 0xFFE ∧
    (0xF10A : Word).toNat = ((suspended .suspKey 0xF10A (.supplyKey 15) (start 0x202 [])).mem.read 0x202).toNat * 256 +
      ((suspended .suspKey 0xF10A (.supplyKey 15) (start 0x202 [])).mem.read 0x203).toNat ∧
    (1 : Reg).val = (0xF10A : Word).toNat / 256 % 16 ∧
    (suspended .suspKey 0xF10A (.supplyKey 15) (start 0x202 [])).host = [.supplyKey 15] ∧
    (suspended .suspKey 0xF10A (.supplyKey 15) (start 0x202 [])).phase = .suspKey ∧ 15 ≤ 15 := by decide

theorem test_witness_SuppliesCompleteTheInstruction_delay :
    (suspended .suspDelay 0xF207 (.supplyDelay 0) (start 0x206 [])).pc.toNat ≤ 0xFFE ∧
    (0xF207 : Word).toNat = ((suspended .suspDelay 0xF207 (.supplyDelay 0) (start 0x206 [])).mem.read 0x206).toNat * 256 +
      ((suspended .suspDelay 0xF207 (.supplyDelay 0) (start 0x206 [])).mem.read 0x207).toNat ∧
    (2 : Reg).val = (0xF207 : Word).toNat / 256 % 16 ∧
    (suspended .suspDelay 0xF207 (.supplyDelay 0) (start 0x206 [])).host = [.supplyDelay 0] ∧
    (suspended .suspDelay 0xF207 (.supplyDelay 0) (start 0x206 [])).phase = .suspDelay ∧ 0 ≤ 255 := by decide

theorem test_witness_MisuseIsRejected :
    ((calling .step { State.reset with phase := .suspRandom }).host = [.step] ∧
      (calling .step { State.reset with phase := .suspRandom }).phase ≠ .ready) ∧
    ((calling (.supplyRandom 0) State.reset).host = [.supplyRandom 0] ∧
      ((calling (.supplyRandom 0) State.reset).phase ≠ .suspRandom ∨ 0 > 255)) ∧
    ((calling (.supplyKey 16) { State.reset with phase := .suspKey }).host = [.supplyKey 16] ∧
      ((calling (.supplyKey 16) { State.reset with phase := .suspKey }).phase ≠ .suspKey ∨ 16 > 15)) ∧
    ((calling (.supplyDelay 256) { State.reset with phase := .suspDelay }).host = [.supplyDelay 256] ∧
      ((calling (.supplyDelay 256) { State.reset with phase := .suspDelay }).phase ≠ .suspDelay ∨ 256 > 255)) := by decide

theorem test_witness_SuspendThenSupply :
    State.reset.phase = .ready ∧
    ((ready 0xC00F [.step, .supplyRandom 255] State.reset).host = .step :: .supplyRandom 255 :: [] ∧
      (ready 0xC00F [.step, .supplyRandom 255] State.reset).fetch = some (encode (.rndVxNN 0 0x0F)) ∧ 255 ≤ 255) ∧
    ((ready 0xFF0A [.step, .supplyKey 15] State.reset).host = .step :: .supplyKey 15 :: [] ∧
      (ready 0xFF0A [.step, .supplyKey 15] State.reset).fetch = some (encode (.ldVxK 15)) ∧ 15 ≤ 15) ∧
    ((ready 0xF207 [.step, .supplyDelay 0] State.reset).host = .step :: .supplyDelay 0 :: [] ∧
      (ready 0xF207 [.step, .supplyDelay 0] State.reset).fetch = some (encode (.ldVxDT 2)) ∧ 0 ≤ 255) ∧
    (calling (.supplyKey 3) State.reset).host = .supplyKey 3 :: [] := by decide

theorem test_witness_ObedientHostCompletes :
    State.reset.phase = .ready ∧ State.reset.host = [] ∧
    (ready 0xC00F [] State.reset).fetch = some (encode (.rndVxNN 0 0x0F)) ∧
    (ready 0xF10A [] State.reset).fetch = some (encode (.ldVxK 1)) ∧
    (ready 0xF207 [] State.reset).fetch = some (encode (.ldVxDT 2)) := by decide

theorem test_witness_HostAccessors :
    (calling (.setKeys 0xFFFF) State.reset).host = .setKeys 0xFFFF :: [] ∧
    (calling .readFramebuffer State.reset).host = .readFramebuffer :: [] ∧
    (calling .readKeys State.reset).host = .readKeys :: [] := by decide

theorem test_witness_InitializeMakesResetState :
    (calling (.initializeWith []) State.reset).host = .initializeWith [] :: [] ∧
    (calling (.initializeWith [0x12, 0x00, 0x34]) State.reset).host = .initializeWith [0x12, 0x00, 0x34] :: [] := by decide

/-- An image one byte too long, for the clause on truncation. -/
theorem test_witness_InitializeMakesResetState_long :
    (calling (.initializeWith (List.replicate 0xE01 1)) State.reset).host = .initializeWith (List.replicate 0xE01 1) :: [] ∧
    (List.replicate 0xE01 (1 : Byte)).length > 0xE00 :=
  ⟨rfl, by rw [List.length_replicate]; decide⟩

theorem test_witness_StepKeepsInvariant :
    State.reset.Inv ∧ (∃ t, step State.reset = .next t) ∧
    (suspended .suspKey 0xF10A (.supplyKey 3) State.reset).Inv ∧
    ∃ t, step (suspended .suspKey 0xF10A (.supplyKey 3) State.reset) = .next t :=
  ⟨by decide, ⟨_, rfl⟩, by decide, ⟨_, rfl⟩⟩

theorem exists_of_after {o : Outcome} {p : State → Bool} (h : after o p = true) : ∃ t, o = .next t ∧ p t = true := by
  cases o with
  | next t => exact ⟨t, rfl, h⟩
  | fault f => cases h
  | refused r => cases h

/-- A run of two steps from reset that ends suspended. -/
theorem test_witness_SuspendedPhaseStandsOnItsInstruction :
    ∃ s, Host.Core.run core 2 { State.reset with host := [.initializeWith [0xF1, 0x0A], .step], draws := 0 } = .next s ∧
      decide (s.phase ≠ .ready) = true := exists_of_after (by decide +kernel)

theorem test_witness_EveryStepGoesOn : (suspended .suspDelay 0xF207 .step { State.reset with pc := 0xFFE }).Inv := by decide

theorem test_witness_ErrorChangesNothingAndRepeats :
    State.reset.host = [] ∧ ∃ t, step State.reset = .next t ∧ t.returned.isError = true := ⟨rfl, _, rfl, rfl⟩

theorem test_witness_ErrorCauses :
    Signal.isError .stackUnderflow = true ∧ operandError .ret State.reset = some .stackUnderflow ∧
    operandError (.drwVxVyN 0 0 1) { State.reset with I := 0x1000 } = some (.memoryOutOfBounds .spriteRead) := by decide

theorem test_witness_ErrorCauses_step :
    State.reset.host = [] ∧ State.reset.phase = .ready ∧ State.reset.pc.toNat ≤ 0xFFE ∧
    (rows.all fun r => !matchesRow (State.reset.mem.readWord State.reset.pc.toNat) r) = true ∧
    { State.reset with pc := 0xFFF }.pc.toNat > 0xFFE := by decide

theorem test_witness_SignalsWithoutError :
    operandError .ret { State.reset with sp := 16 } = none ∧ operandError (.callNNN 0) { State.reset with sp := 15 } = none ∧
    operandError (.drwVxVyN 0 0 0) { State.reset with I := 0x1000 } = none ∧
    operandError (.bcdVx 0) { State.reset with I := 0xFFD } = none ∧
    operandError (.ldMemVx 15) { State.reset with I := 0xFF0 } = none ∧
    operandError (.ldVxMem 0) { State.reset with I := 0xFFF } = none ∧
    operandError (.skpVx 1) (start 0x200 [(1, 15)]) = none ∧ operandError (.sknpVx 1) (start 0x200 [(1, 15)]) = none ∧
    operandError (.ldFVx 1) (start 0x200 [(1, 15)]) = none := by decide

theorem test_witness_ProgramCounterTable :
    (operandError (.jpV0NNN 0xFFF) State.reset = none ∧ ∃ t, exec (.jpV0NNN 0xFFF) State.reset = .next t) ∧
    (operandError .ret State.reset ≠ none ∧ ∃ t, exec .ret State.reset = .next t) :=
  ⟨⟨by decide, _, rfl⟩, ⟨by decide, _, rfl⟩⟩

theorem test_witness_RegisterFrame :
    (∃ t, exec (.addVxVy 1 2) State.reset = .next t) ∧ writesReg (.addVxVy 1 2) 2 = false ∧
    (∃ t, exec (.ldVxMem 14) State.reset = .next t) ∧ writesReg (.ldVxMem 14) 15 = false :=
  ⟨⟨_, rfl⟩, by decide, ⟨_, rfl⟩, by decide⟩

theorem test_witness_Frames :
    (∃ t, exec (.bcdVx 1) State.reset = .next t) ∧
    (∀ nnn, Instr.bcdVx 1 ≠ .callNNN nnn) ∧ Instr.bcdVx 1 ≠ .ret ∧
    (∀ nnn, Instr.bcdVx 1 ≠ .ldINNN nnn) ∧ (∀ x, Instr.bcdVx 1 ≠ .addIVx x) ∧ (∀ x, Instr.bcdVx 1 ≠ .ldFVx x) ∧
    Instr.bcdVx 1 ≠ .cls ∧ (∀ x y n, Instr.bcdVx 1 ≠ .drwVxVyN x y n) ∧
    (∀ x, Instr.bcdVx 1 ≠ .ldDTVx x) ∧ (∀ x, Instr.bcdVx 1 ≠ .ldSTVx x) ∧
    (∀ x nn, Instr.bcdVx 1 ≠ .rndVxNN x nn) ∧ (∀ x, Instr.bcdVx 1 ≠ .ldVxK x) ∧ (∀ x, Instr.bcdVx 1 ≠ .ldVxDT x) :=
  ⟨⟨_, rfl⟩, by simp, by simp, by simp, by simp, by simp, by simp, by simp, by simp, by simp, by simp, by simp, by simp⟩

theorem test_witness_Frames_memory :
    (∃ t, exec (.ldVxMem 15) State.reset = .next t) ∧ (∀ x, Instr.ldVxMem 15 ≠ .bcdVx x) ∧ (∀ x, Instr.ldVxMem 15 ≠ .ldMemVx x) :=
  ⟨⟨_, rfl⟩, by simp, by simp⟩

theorem test_witness_SixteenCallsSucceed :
    State.reset.sp.val + (List.replicate 16 (0x200 : Addr)).length ≤ 16 ∧
    { State.reset with sp := 16 }.sp.val + ([] : List Addr).length ≤ 16 ∧ { State.reset with sp := 16 }.sp.val = 16 := by decide

theorem test_witness_RetUndoesCall : { State.reset with sp := 15 }.sp.val < 16 ∧ (14 : Fin 16).val ≠ { State.reset with sp := 15 }.sp.val := by
  decide

theorem test_witness_StepUnderEveryParameter :
    (ready 0x1234 [] (start 0xFFE [])).phase = .ready ∧ (ready 0x1234 [] (start 0xFFE [])).pc.toNat ≤ 0xFFE ∧
    decodeWordWith otherParams.admit8XY0 ((ready 0x1234 [] (start 0xFFE [])).mem.readWord 0xFFE) = some (.jpNNN 0x234) ∧
    (ready 0x1234 [] (start 0xFFE [])).host = [] ∧
    (ready 0x1234 [.step] (start 0xFFE [])).host = .step :: [] ∧
    (ready 0x8140 [.step] (start 0x200 [])).phase = .ready ∧ (ready 0x8140 [.step] (start 0x200 [])).pc.toNat ≤ 0xFFE ∧
    decodeWordWith otherParams.admit8XY0 ((ready 0x8140 [.step] (start 0x200 [])).mem.readWord 0x200) = none ∧
    (ready 0x8140 [.step] (start 0x200 [])).host = .step :: [] := by decide

theorem test_witness_StepUnderEveryParameter_other :
    (∀ x y, Instr.bcdVx 1 ≠ .shrVxVy x y) ∧ (∀ x y, Instr.bcdVx 1 ≠ .shlVxVy x y) ∧ ∀ x y n, Instr.bcdVx 1 ≠ .drwVxVyN x y n :=
  ⟨by simp, by simp, by simp⟩

theorem test_witness_EndsOfARunLast_error :
    (ready 0x00EE [.step] State.reset).runEnd machineParams = some .error ∧
    (ready 0x00EE [.step] State.reset).host = .step :: [] ∧ (∀ image, HostCall.step ≠ .initializeWith image) ∧
    ∃ t, stepWith machineParams (ready 0x00EE [.step] State.reset) = .next t ∧
      decide (t.phase = (ready 0x00EE [.step] State.reset).phase) = true :=
  ⟨by decide, by decide, by simp, exists_of_after (by decide)⟩

theorem test_witness_EndsOfARunLast_jumpToSelf :
    (ready 0x1200 [.step] State.reset).runEnd machineParams = some .jumpToSelf ∧
    (ready 0x1200 [.step] State.reset).host = .step :: [] ∧
    ∃ t, stepWith machineParams (ready 0x1200 [.step] State.reset) = .next t ∧
      decide (t.phase = (ready 0x1200 [.step] State.reset).phase) = true :=
  ⟨by decide, by decide, exists_of_after (by decide)⟩

theorem test_witness_EndsOfARunLast_suspension :
    (suspended .suspKey 0xF10A .step State.reset).runEnd machineParams = some .suspension ∧
    (suspended .suspKey 0xF10A .step State.reset).host = .step :: [] ∧
    ∃ t, stepWith machineParams (suspended .suspKey 0xF10A .step State.reset) = .next t ∧
      decide (t.phase = (suspended .suspKey 0xF10A .step State.reset).phase) = true :=
  ⟨by decide, by decide, exists_of_after (by decide)⟩

/-- A suspension that the host does complete: the phase changes. -/
theorem test_witness_EndsOfARunLast_completed :
    (suspended .suspKey 0xF10A (.supplyKey 15) State.reset).runEnd machineParams = some .suspension ∧
    (suspended .suspKey 0xF10A (.supplyKey 15) State.reset).host = .supplyKey 15 :: [] ∧
    (∀ image, HostCall.supplyKey 15 ≠ .initializeWith image) ∧
    ∃ t, stepWith machineParams (suspended .suspKey 0xF10A (.supplyKey 15) State.reset) = .next t ∧
      decide (t.phase ≠ (suspended .suspKey 0xF10A (.supplyKey 15) State.reset).phase) = true :=
  ⟨by decide, by decide, by simp, exists_of_after (by decide)⟩

end Sys2Proof.Tests
end

section
/-! PROOFS. The step relation under every setting of the five parameters (R6, R100). -/

namespace Sys2Proof.Machine

/-- The `step()` transaction on a fetched word that does not decode raises InvalidInstruction (R102). -/
theorem engineStep_of_undecodable (p : Params) {s : State} {w : Word} (hp : s.phase = .ready) (hf : s.fetch = some w)
    (hd : decodeWordWith p.admit8XY0 w = none) : engineStep p s = raise .invalidInstruction s := by
  simp only [engineStep, hp, hf, hd, ne_eq, not_true_eq_false, if_false]

/-- With a `step` call pending, a step is the `step()` transaction of the state less that call. -/
theorem stepWith_of_step_call (p : Params) {s : State} {rest : List HostCall} (h : s.host = .step :: rest) :
    stepWith p s = engineStep p { s with host := rest } :=
  stepWith_of_call p h

/-- Settles O59: the fetch succeeds at a `pc` up to 0xFFE, it does not see the host's calls, and the decode of the fetched word
decides the step. -/
theorem stepUnderEveryParameter : Obligations.StepUnderEveryParameter := by
  unfold Obligations.StepUnderEveryParameter
  intro p s hready hpc
  have hfetch : s.fetch = some (s.mem.readWord s.pc.toNat) := (s.fetch_eq_some_iff _).mpr ⟨hpc, rfl⟩
  have hfetch_rest (rest : List HostCall) : { s with host := rest }.fetch = some (s.mem.readWord s.pc.toNat) :=
    (State.fetch_congr rfl rfl).trans hfetch
  refine ⟨fun i hdecode => ⟨fun hidle => ?_, fun rest hcall => ?_⟩, fun hdecode rest hcall => ?_,
    fun _ _ => rfl, fun _ _ => rfl, fun _ _ _ => rfl, fun i => execWith_eq_exec p i s, rfl, fun i => execWith_machine i s⟩
  · exact (stepWith_of_ready p hidle hready).trans (engineStep_of_fetch p hready hfetch hdecode)
  · exact (stepWith_of_step_call p hcall).trans (engineStep_of_fetch p hready (hfetch_rest rest) hdecode)
  · exact (stepWith_of_step_call p hcall).trans (engineStep_of_undecodable p hready (hfetch_rest rest) hdecode)

end Sys2Proof.Machine
end

section
/-! PROOFS. What every instruction does, said once (R35, R231): where the operand check raises a signal, the state is unchanged but
for the record of it; elsewhere the instruction writes the fields its row of R35 names, and `pc` and the signal are the ones of the
spec's tables. -/

namespace Sys2Proof.Machine

open Sys2Proof.Spec

/-- What an instruction writes besides `pc` and the returned signal where it raises none: its row of R35's table. Control transfer
without the stack and the skips write nothing else. -/
def effect (i : Instr) (s : State) : State :=
  match i with
  | .cls => { s with fb := Framebuffer.blank }
  | .ret => { s with sp := ⟨s.sp.val - 1, by omega⟩ }
  | .callNNN _ => { s with stack := s.stack.setIfInBounds s.sp.val s.pc, sp := ⟨min (s.sp.val + 1) 16, by omega⟩ }
  | .ldVxNN x nn => s.setReg x nn
  | .addVxNN x nn => s.setReg x (s.reg x + nn)
  | .ldVxVy x y => s.setReg x (s.reg y)
  | .orVxVy x y => s.setReg x (s.reg x ||| s.reg y)
  | .andVxVy x y => s.setReg x (s.reg x &&& s.reg y)
  | .xorVxVy x y => s.setReg x (s.reg x ^^^ s.reg y)
  | .addVxVy x y => s.writeResultAndFlag x (s.reg x + s.reg y) (carryFlag (s.reg x) (s.reg y))
  | .subVxVy x y => s.writeResultAndFlag x (s.reg x - s.reg y) (noBorrowFlag (s.reg x) (s.reg y))
  | .shrVxVy x y =>
    s.writeResultAndFlag x (shiftOperand shiftSource s x y >>> 1) (shiftedOutLow (shiftOperand shiftSource s x y))
  | .subnVxVy x y => s.writeResultAndFlag x (s.reg y - s.reg x) (noBorrowFlag (s.reg y) (s.reg x))
  | .shlVxVy x y =>
    s.writeResultAndFlag x (shiftOperand shiftSource s x y <<< 1) (shiftedOutHigh (shiftOperand shiftSource s x y))
  | .ldINNN nnn => { s with I := addrOperand nnn }
  | .rndVxNN _ _ => { s with phase := .suspRandom }
  | .drwVxVyN x y n =>
    State.setReg { s with fb := (spriteDrawing drawEdgeMode x y n s).1 } flagReg
      (flagByte (spriteDrawing drawEdgeMode x y n s).2)
  | .ldVxDT _ => { s with phase := .suspDelay }
  | .ldVxK _ => { s with phase := .suspKey }
  | .ldDTVx x => { s with dt := s.reg x }
  | .ldSTVx x => { s with st := s.reg x }
  | .addIVx x => { s with I := s.I + regOperand16 s x }
  | .ldFVx x => { s with I := 5 * regOperand16 s x }
  | .bcdVx x => { s with mem := s.mem.writeBytes s.base (bcdDigits (s.reg x)) }
  | .ldMemVx x => { s with mem := s.mem.writeRegs s.base s.x (x.val + 1) x.isLt }
  | .ldVxMem x => { s with x := s.mem.readRegs s.base s.x (x.val + 1) x.isLt }
  | .jpNNN _ | .seVxNN _ _ | .sneVxNN _ _ | .seVxVy _ _ | .sneVxVy _ _ | .jpV0NNN _ | .skpVx _ | .sknpVx _ => s

/-- The state after an instruction that raises nothing. -/
def completed (i : Instr) (s : State) : State :=
  { effect i s with pc := BitVec.ofNat 16 (nextPc i s), returned := .signal (goodSignal i) }

theorem ofNat_toNat_add (a : Word) (n : Nat) : BitVec.ofNat 16 (a.toNat + n) = a + BitVec.ofNat 16 n := by
  rw [BitVec.ofNat_add, BitVec.ofNat_toNat, BitVec.setWidth_eq]

/-- The end of a plain instruction, its `pc` written as in R22's table. -/
theorem complete_eq (g : Signal) (s : State) :
    complete g s = .next { s with pc := BitVec.ofNat 16 (s.pc.toNat + 2), returned := .signal g } := by
  rw [ofNat_toNat_add]; rfl

/-- The end of a skip, its `pc` written as in R22's table. -/
theorem skipIf_eq {c : Bool} {n : Nat} (s : State) (h : n = if c then 4 else 2) :
    skipIf c s = .next { s with pc := BitVec.ofNat 16 (s.pc.toNat + n), returned := .signal .completed } := by
  rw [ofNat_toNat_add, h]; cases c <;> rfl

/-- The end of a transfer to a target given as a number. -/
theorem transfer_eq {a : Word} {n : Nat} (s : State) (h : a = BitVec.ofNat 16 n) :
    transfer a s = .next { s with pc := BitVec.ofNat 16 n, returned := .signal .completed } := by
  rw [h]; rfl

theorem suspend_eq (p : Phase) (g : Signal) (s : State) :
    suspend p g s = .next { s with phase := p, pc := BitVec.ofNat 16 s.pc.toNat, returned := .signal g } := by
  rw [BitVec.ofNat_toNat, BitVec.setWidth_eq]; rfl

theorem addrOperand_eq_ofNat (nnn : Addr) : addrOperand nnn = BitVec.ofNat 16 nnn.toNat := by
  simp [addrOperand, BitVec.ofNat_toNat]

theorem regOperand16_eq_ofNat (s : State) (r : Reg) : regOperand16 s r = BitVec.ofNat 16 (s.reg r).toNat := by
  simp [regOperand16, BitVec.ofNat_toNat]

theorem spriteInRange_iff (s : State) (n : Nibble) : spriteInRange s n = true ↔ s.I.toNat + n.toNat ≤ 0x1000 :=
  decide_eq_true_iff

theorem bcdInRange_iff (s : State) : bcdInRange s = true ↔ s.I.toNat + 2 ≤ 0xFFF := decide_eq_true_iff

theorem transferInRange_iff (s : State) (x : Reg) : transferInRange s x = true ↔ s.I.toNat + x.val ≤ 0xFFF :=
  decide_eq_true_iff

theorem nibbleOperand_of_le {s : State} {x : Reg} (h : (s.reg x).toNat ≤ 15) :
    nibbleOperand s x = some ⟨(s.reg x).toNat, by omega⟩ :=
  (nibbleOperand_eq_some_iff s x _).mpr rfl

/-- The state every instruction leaves: unchanged but for the signal where the operand check fails, else completed. -/
def afterExec (i : Instr) (s : State) : State :=
  (operandError i s).elim (completed i s) fun g => { s with returned := .signal g }

/-- An instruction with one operand check raises its signal where the check fails and completes where it does not. -/
theorem exec_of_check {i : Instr} {s : State} {bad : Prop} [Decidable bad] {g : Signal}
    (hcheck : operandError i s = if bad then some g else none) (hraise : bad → exec i s = raise g s)
    (hdone : ¬bad → exec i s = .next (completed i s)) : exec i s = .next (afterExec i s) := by
  unfold afterExec
  by_cases h : bad
  · rw [hcheck, if_pos h, hraise h]; rfl
  · rw [hcheck, if_neg h, hdone h]; rfl

/-! The instructions with an operand check, by the table of R231. -/

theorem exec_ret (s : State) : exec .ret s = .next (afterExec .ret s) := by
  refine exec_of_check (bad := s.sp.val = 0) rfl (fun h => dif_pos h) fun h => (dif_neg h).trans (transfer_eq _ ?_)
  have hlt : s.sp.val - 1 < 16 := by have := s.sp.isLt; omega
  rw [nextPc, ofNat_toNat_add]
  simp [Array.getD_eq_getD_getElem?, hlt]

theorem exec_callNNN (nnn : Addr) (s : State) : exec (.callNNN nnn) s = .next (afterExec (.callNNN nnn) s) := by
  refine exec_of_check (bad := s.sp.val = 16) rfl (fun h => dif_neg (by omega)) fun h => ?_
  have hlt : s.sp.val < 16 := by omega
  have hsp : (⟨s.sp.val + 1, by omega⟩ : Fin 17) = ⟨min (s.sp.val + 1) 16, by omega⟩ :=
    Fin.ext (Nat.min_eq_left hlt).symm
  have hstack : s.stack.set s.sp.val s.pc = s.stack.setIfInBounds s.sp.val s.pc :=
    Vector.toArray_inj.mp (by simp [Array.setIfInBounds_def, hlt])
  refine (dif_pos hlt).trans ?_
  rw [hsp, hstack]
  exact transfer_eq _ (addrOperand_eq_ofNat nnn)

theorem exec_drwVxVyN (x y : Reg) (n : Nibble) (s : State) :
    exec (.drwVxVyN x y n) s = .next (afterExec (.drwVxVyN x y n) s) :=
  exec_of_check (bad := s.I.toNat + n.toNat > 0x1000) rfl (fun h => if_neg (mt (spriteInRange_iff s n).mp (by omega)))
    fun h => (if_pos ((spriteInRange_iff s n).mpr (by omega))).trans (complete_eq _ _)

theorem exec_skpVx (x : Reg) (s : State) : exec (.skpVx x) s = .next (afterExec (.skpVx x) s) := by
  refine exec_of_check (bad := (s.reg x).toNat > 15) rfl (fun h => ?_) fun h => ?_
  · rw [exec, execSkpVx, (nibbleOperand_eq_none_iff s x).mpr h]
  · rw [exec, execSkpVx, nibbleOperand_of_le (by omega)]
    exact skipIf_eq s rfl

theorem exec_sknpVx (x : Reg) (s : State) : exec (.sknpVx x) s = .next (afterExec (.sknpVx x) s) := by
  refine exec_of_check (bad := (s.reg x).toNat > 15) rfl (fun h => ?_) fun h => ?_
  · rw [exec, execSknpVx, (nibbleOperand_eq_none_iff s x).mpr h]
  · rw [exec, execSknpVx, nibbleOperand_of_le (by omega)]
    exact skipIf_eq s (by rw [← ite_not]; simp [keyDown, BitVec.testBit_toNat])

theorem exec_ldFVx (x : Reg) (s : State) : exec (.ldFVx x) s = .next (afterExec (.ldFVx x) s) := by
  refine exec_of_check (bad := (s.reg x).toNat > 15) rfl (fun h => ?_) fun h => ?_
  · rw [exec, execLdFVx, (nibbleOperand_eq_none_iff s x).mpr h]
  · rw [exec, execLdFVx, nibbleOperand_of_le (by omega)]
    exact complete_eq _ _

theorem exec_bcdVx (x : Reg) (s : State) : exec (.bcdVx x) s = .next (afterExec (.bcdVx x) s) :=
  exec_of_check (bad := s.I.toNat + 2 > 0xFFF) rfl (fun h => if_neg (mt (bcdInRange_iff s).mp (by omega)))
    fun h => (if_pos ((bcdInRange_iff s).mpr (by omega))).trans (complete_eq _ _)

theorem exec_ldMemVx (x : Reg) (s : State) : exec (.ldMemVx x) s = .next (afterExec (.ldMemVx x) s) :=
  exec_of_check (bad := s.I.toNat + x.val > 0xFFF) rfl (fun h => if_neg (mt (transferInRange_iff s x).mp (by omega)))
    fun h => (if_pos ((transferInRange_iff s x).mpr (by omega))).trans (complete_eq _ _)

theorem exec_ldVxMem (x : Reg) (s : State) : exec (.ldVxMem x) s = .next (afterExec (.ldVxMem x) s) :=
  exec_of_check (bad := s.I.toNat + x.val > 0xFFF) rfl (fun h => if_neg (mt (transferInRange_iff s x).mp (by omega)))
    fun h => (if_pos ((transferInRange_iff s x).mpr (by omega))).trans (complete_eq _ _)

/-- Every instruction answers a next state in every state (R236), and it is this one. -/
theorem exec_eq_next (i : Instr) (s : State) : exec i s = .next (afterExec i s) := by
  cases i
  case ret => exact exec_ret s
  case callNNN nnn => exact exec_callNNN nnn s
  case drwVxVyN x y n => exact exec_drwVxVyN x y n s
  case skpVx x => exact exec_skpVx x s
  case sknpVx x => exact exec_sknpVx x s
  case ldFVx x => exact exec_ldFVx x s
  case bcdVx x => exact exec_bcdVx x s
  case ldMemVx x => exact exec_ldMemVx x s
  case ldVxMem x => exact exec_ldVxMem x s
  case jpNNN nnn => exact transfer_eq s (addrOperand_eq_ofNat nnn)
  case jpV0NNN nnn =>
    exact transfer_eq s (by rw [nextPc, addrOperand_eq_ofNat, regOperand16_eq_ofNat, BitVec.ofNat_add])
  case seVxNN x nn => exact skipIf_eq s (by simp)
  case seVxVy x y => exact skipIf_eq s (by simp)
  case sneVxNN x nn => exact skipIf_eq s (by simp)
  case sneVxVy x y => exact skipIf_eq s (by simp)
  case rndVxNN | ldVxK | ldVxDT => exact suspend_eq _ _ s
  all_goals exact complete_eq _ _

/-- Everything an instruction can do: it raises the signal of its failed operand check, or it completes. -/
theorem exec_next_cases {i : Instr} {s t : State} (h : exec i s = .next t) :
    (∃ g, operandError i s = some g ∧ t = { s with returned := .signal g }) ∨
    (operandError i s = none ∧ t = completed i s) := by
  rw [exec_eq_next, Host.Outcome.next.injEq, afterExec] at h
  cases herr : operandError i s with
  | some g => exact .inl ⟨g, rfl, by rw [← h, herr]; rfl⟩
  | none => exact .inr ⟨rfl, by rw [← h, herr]; rfl⟩

end Sys2Proof.Machine
end

section
/-! PROOFS. The frames of the instructions (R20 to R29, R35): the fields an instruction's `effect` leaves alone are unchanged after it,
with or without an error. -/

namespace Sys2Proof.Machine

open Sys2Proof.Spec

/-- A part of the state that `pc` and the signal are no part of is unchanged by an instruction whose `effect` leaves it alone. -/
theorem exec_keeps {α : Type} (f : State → α)
    (hf : ∀ (u : State) (a : Word) (r : Returned), f { u with pc := a, returned := r } = f u)
    {i : Instr} {s t : State} (h : exec i s = .next t) (heffect : f (effect i s) = f s) : f t = f s := by
  rcases exec_next_cases h with ⟨g, -, rfl⟩ | ⟨-, rfl⟩
  · exact hf s s.pc (.signal g)
  · exact (hf _ _ _).trans heffect

theorem effect_stack {i : Instr} (s : State) (hcall : ∀ nnn, i ≠ .callNNN nnn) : (effect i s).stack = s.stack := by
  cases i
  case callNNN nnn => exact absurd rfl (hcall nnn)
  all_goals rfl

theorem effect_sp {i : Instr} (s : State) (hcall : ∀ nnn, i ≠ .callNNN nnn) (hret : i ≠ .ret) : (effect i s).sp = s.sp := by
  cases i
  case callNNN nnn => exact absurd rfl (hcall nnn)
  case ret => exact absurd rfl hret
  all_goals rfl

theorem effect_I {i : Instr} (s : State) (hld : ∀ nnn, i ≠ .ldINNN nnn) (hadd : ∀ x, i ≠ .addIVx x)
    (hfont : ∀ x, i ≠ .ldFVx x) : (effect i s).I = s.I := by
  cases i
  case ldINNN nnn => exact absurd rfl (hld nnn)
  case addIVx x => exact absurd rfl (hadd x)
  case ldFVx x => exact absurd rfl (hfont x)
  all_goals rfl

theorem effect_mem {i : Instr} (s : State) (hbcd : ∀ x, i ≠ .bcdVx x) (hdump : ∀ x, i ≠ .ldMemVx x) :
    (effect i s).mem = s.mem := by
  cases i
  case bcdVx x => exact absurd rfl (hbcd x)
  case ldMemVx x => exact absurd rfl (hdump x)
  all_goals rfl

theorem effect_fb {i : Instr} (s : State) (hcls : i ≠ .cls) (hdrw : ∀ x y n, i ≠ .drwVxVyN x y n) :
    (effect i s).fb = s.fb := by
  cases i
  case cls => exact absurd rfl hcls
  case drwVxVyN x y n => exact absurd rfl (hdrw x y n)
  all_goals rfl

theorem effect_dt {i : Instr} (s : State) (hdt : ∀ x, i ≠ .ldDTVx x) : (effect i s).dt = s.dt := by
  cases i
  case ldDTVx x => exact absurd rfl (hdt x)
  all_goals rfl

theorem effect_st {i : Instr} (s : State) (hst : ∀ x, i ≠ .ldSTVx x) : (effect i s).st = s.st := by
  cases i
  case ldSTVx x => exact absurd rfl (hst x)
  all_goals rfl

theorem effect_phase {i : Instr} (s : State) (hrnd : ∀ x nn, i ≠ .rndVxNN x nn) (hkey : ∀ x, i ≠ .ldVxK x)
    (hdelay : ∀ x, i ≠ .ldVxDT x) : (effect i s).phase = s.phase := by
  cases i
  case rndVxNN x nn => exact absurd rfl (hrnd x nn)
  case ldVxK x => exact absurd rfl (hkey x)
  case ldVxDT x => exact absurd rfl (hdelay x)
  all_goals rfl

@[simp] theorem effect_keys (i : Instr) (s : State) : (effect i s).keys = s.keys := by cases i <;> rfl
@[simp] theorem effect_host (i : Instr) (s : State) : (effect i s).host = s.host := by cases i <;> rfl
@[simp] theorem effect_draws (i : Instr) (s : State) : (effect i s).draws = s.draws := by cases i <;> rfl

/-- A register outside an instruction's write set is unchanged (R35). -/
theorem effect_reg {i : Instr} (s : State) {r : Reg} (h : writesReg i r = false) : (effect i s).reg r = s.reg r := by
  cases i
  case ldVxNN x _ | addVxNN x _ | ldVxVy x _ | orVxVy x _ | andVxVy x _ | xorVxVy x _ =>
    exact State.setReg_reg_ne s x r _ (beq_eq_false_iff_ne.mp h)
  case addVxVy x _ | subVxVy x _ | shrVxVy x _ | subnVxVy x _ | shlVxVy x _ =>
    obtain ⟨hx, hflag⟩ := Bool.or_eq_false_iff.mp h
    exact s.writeResultAndFlag_reg_other x r _ _ (beq_eq_false_iff_ne.mp hx) (beq_eq_false_iff_ne.mp hflag)
  case drwVxVyN => exact State.setReg_reg_ne _ flagReg r _ (beq_eq_false_iff_ne.mp h)
  case ldVxMem x =>
    have hlt : ¬r.val < x.val + 1 := by simpa [writesReg, Nat.lt_succ_iff] using h
    exact (Memory.getElem_readRegs ..).trans (if_neg hlt)
  all_goals rfl

/-- Settles O52: `completed` takes `pc` from the spec's table, and a raised signal leaves it. -/
theorem programCounterTable : Obligations.ProgramCounterTable := by
  unfold Obligations.ProgramCounterTable
  intro i s t h
  rcases exec_next_cases h with ⟨g, herr, rfl⟩ | ⟨herr, rfl⟩
  · exact ⟨fun hnone => by simp [herr] at hnone, fun _ => rfl⟩
  · exact ⟨fun _ => BitVec.toNat_ofNat _ _, fun hsome => absurd herr hsome⟩

/-- Settles O53: the frame `exec_keeps` of one register, whose `effect` the write sets name. -/
theorem registerFrame : Obligations.RegisterFrame := by
  unfold Obligations.RegisterFrame
  intro i s t r h hr
  exact exec_keeps (State.reg · r) (fun _ _ _ => rfl) h (effect_reg s hr)

/-- Settles O54: the frames of the stack, its depth and I. -/
theorem stackAndIndexFrame : Obligations.StackAndIndexFrame := by
  unfold Obligations.StackAndIndexFrame
  intro i s t h
  exact ⟨fun hcall => exec_keeps State.stack (fun _ _ _ => rfl) h (effect_stack s hcall),
    fun hcall hret => exec_keeps State.sp (fun _ _ _ => rfl) h (effect_sp s hcall hret),
    fun hld hadd hfont => exec_keeps State.I (fun _ _ _ => rfl) h (effect_I s hld hadd hfont)⟩

/-- Settles O55: the frames of memory and the framebuffer. -/
theorem memoryAndScreenFrame : Obligations.MemoryAndScreenFrame := by
  unfold Obligations.MemoryAndScreenFrame
  intro i s t h
  exact ⟨fun hbcd hdump => exec_keeps State.mem (fun _ _ _ => rfl) h (effect_mem s hbcd hdump),
    fun hcls hdrw => exec_keeps State.fb (fun _ _ _ => rfl) h (effect_fb s hcls hdrw)⟩

/-- Settles O56: the frames of the keys, the timers, the phase and the host's own fields. -/
theorem timerKeyAndPhaseFrame : Obligations.TimerKeyAndPhaseFrame := by
  unfold Obligations.TimerKeyAndPhaseFrame
  intro i s t h
  exact ⟨exec_keeps State.keys (fun _ _ _ => rfl) h (effect_keys i s),
    exec_keeps State.host (fun _ _ _ => rfl) h (effect_host i s),
    exec_keeps State.draws (fun _ _ _ => rfl) h (effect_draws i s),
    fun hdt => exec_keeps State.dt (fun _ _ _ => rfl) h (effect_dt s hdt),
    fun hst => exec_keeps State.st (fun _ _ _ => rfl) h (effect_st s hst),
    fun hrnd hkey hdelay => exec_keeps State.phase (fun _ _ _ => rfl) h (effect_phase s hrnd hkey hdelay)⟩

end Sys2Proof.Machine
end

section
/-! PROOFS. The reset state (R31), and the invariant of the reachable states: it holds at reset and every step keeps it (R32, R223). -/

namespace Sys2Proof.Machine

open Sys2Proof.Spec

/-- Settles O44: an address no cell is listed for reads as the reset contents, and reset lists none. -/
theorem resetHoldsTheTable : Obligations.ResetHoldsTheTable := by
  unfold Obligations.ResetHoldsTheTable
  exact ⟨State.reset_reg, rfl, rfl, fun k => by simp [State.reset], rfl, rfl, Framebuffer.pixel_blank, rfl, rfl, rfl,
    fun _ => rfl, rfl, rfl, rfl⟩

/-- Settles O45: reset lists no cell of memory and is Ready. -/
theorem invariantAtReset : Obligations.InvariantAtReset := by
  unfold Obligations.InvariantAtReset
  exact ⟨rfl, rfl⟩

/-! A word is the encoding of what it decodes to, so the words of the three deferred instructions match their rows (R74, R75). -/

/-- A word of the register-register family is its instruction's encoding. -/
theorem encode_of_decodeFamily8 {admits : Bool} {w : Word} {i : Instr} (hop : fieldOP w = 0x8)
    (h : decodeFamily8 admits w = some i) : encode i = w := by
  have hw := wordXY_fields w
  unfold decodeFamily8 at h
  split at h
  case h_1 hn =>
    split at h
    · cases h; rwa [hop, hn] at hw
    · cases h
  case h_10 => cases h
  all_goals
    rename_i hn
    cases h
    rwa [hop, hn] at hw

/-- A word of family F is its instruction's encoding. -/
theorem encode_of_decodeFamilyF {w : Word} {i : Instr} (hop : fieldOP w = 0xF) (h : decodeFamilyF w = some i) :
    encode i = w := by
  have hw := wordXI_fields w
  unfold decodeFamilyF at h
  split at h
  case h_10 => cases h
  all_goals
    rename_i hnn
    cases h
    rwa [hop, hnn] at hw

/-- A word that decodes is the encoding of what it decodes to. -/
theorem encode_of_decodeWordWith {admits : Bool} {w : Word} {i : Instr} (h : decodeWordWith admits w = some i) :
    encode i = w := by
  have hA := wordA_fields w
  have hXI := wordXI_fields w
  have hXY := wordXY_fields w
  unfold decodeWordWith at h
  split at h
  case h_1 =>
    split_ifs at h with hcls hret
    · cases h; exact hcls.symm
    · cases h; exact hret.symm
  case h_2 hop | h_3 hop | h_11 hop | h_12 hop => cases h; rwa [hop] at hA
  case h_4 hop | h_5 hop | h_7 hop | h_8 hop | h_13 hop => cases h; rwa [hop] at hXI
  case h_6 hop | h_10 hop =>
    split_ifs at h with hn
    cases h; rwa [hop, hn] at hXY
  case h_9 hop => exact encode_of_decodeFamily8 hop h
  case h_14 hop => cases h; rwa [hop] at hXY
  case h_15 hop =>
    split_ifs at h with hskp hsknp
    · cases h; rwa [hop, hskp] at hXI
    · cases h; rwa [hop, hsknp] at hXI
  case h_16 =>
    have hop : fieldOP w = 0xF := by
      clear hA hXI hXY h
      generalize fieldOP w = op at *
      revert op
      decide
    exact encode_of_decodeFamilyF hop h

theorem rnd_and_mask {w : Word} {x : Reg} {nn : Byte} (h : decodeWord w = some (.rndVxNN x nn)) : w &&& 0xF000 = 0xC000 := by
  rw [and_F000, ← encode_of_decodeWordWith h, encode, fieldOP_wordXI]; rfl

theorem ldVxK_and_mask {w : Word} {x : Reg} (h : decodeWord w = some (.ldVxK x)) : w &&& 0xF0FF = 0xF00A := by
  rw [and_F0FF, ← encode_of_decodeWordWith h, encode, fieldOP_wordXI, fieldNN_wordXI]; rfl

theorem ldVxDT_and_mask {w : Word} {x : Reg} (h : decodeWord w = some (.ldVxDT x)) : w &&& 0xF0FF = 0xF007 := by
  rw [and_F0FF, ← encode_of_decodeWordWith h, encode, fieldOP_wordXI, fieldNN_wordXI]; rfl

/-! When a state meets the invariant. -/

/-- In Ready the invariant is the canonical form of memory. -/
theorem State.inv_of_ready {s : State} (hmem : s.mem.wf = true) (hphase : s.phase = .ready) : s.Inv :=
  ⟨hmem, by rw [State.suspendedOk, hphase]⟩

/-- A suspension on the word of its own instruction meets the invariant (R223). -/
theorem State.inv_of_rnd {s : State} {w : Word} {x : Reg} {nn : Byte} (hmem : s.mem.wf = true) (hphase : s.phase = .suspRandom)
    (hfetch : s.fetch = some w) (hdecode : decodeWord w = some (.rndVxNN x nn)) : s.Inv :=
  ⟨hmem, by rw [State.suspendedOk, hphase, hfetch]; exact beq_iff_eq.mpr (rnd_and_mask hdecode)⟩

theorem State.inv_of_ldVxK {s : State} {w : Word} {x : Reg} (hmem : s.mem.wf = true) (hphase : s.phase = .suspKey)
    (hfetch : s.fetch = some w) (hdecode : decodeWord w = some (.ldVxK x)) : s.Inv :=
  ⟨hmem, by rw [State.suspendedOk, hphase, hfetch]; exact beq_iff_eq.mpr (ldVxK_and_mask hdecode)⟩

theorem State.inv_of_ldVxDT {s : State} {w : Word} {x : Reg} (hmem : s.mem.wf = true) (hphase : s.phase = .suspDelay)
    (hfetch : s.fetch = some w) (hdecode : decodeWord w = some (.ldVxDT x)) : s.Inv :=
  ⟨hmem, by rw [State.suspendedOk, hphase, hfetch]; exact beq_iff_eq.mpr (ldVxDT_and_mask hdecode)⟩

/-! Every transaction keeps the invariant. -/

/-- An instruction that raises nothing keeps memory canonical: BCD and the register dump write inside it (R54). -/
theorem effect_mem_wf {i : Instr} {s : State} (herr : operandError i s = none) (hmem : s.mem.wf = true) :
    (effect i s).mem.wf = true := by
  cases i
  case bcdVx x =>
    have hin : s.I.toNat + 2 ≤ 0xFFF := by simpa [operandError] using herr
    exact Memory.wf_writeBytes _ hmem (by rw [bcdDigits_length, State.base]; omega)
  case ldMemVx x =>
    have hin : s.I.toNat + x.val ≤ 0xFFF := by simpa [operandError] using herr
    exact Memory.wf_writeRegs _ _ _ hmem (by rw [State.base]; omega)
  all_goals exact hmem

theorem suspended_fetch (s : State) (p : Phase) (r : Returned) :
    { s with phase := p, pc := BitVec.ofNat 16 s.pc.toNat, returned := r }.fetch = s.fetch :=
  State.fetch_congr (by simp) rfl

/-- The instruction fetched at `pc` keeps the invariant: a deferred one suspends on its own word. -/
theorem completed_inv {i : Instr} {s : State} {w : Word} (hmem : s.mem.wf = true) (hready : s.phase = .ready)
    (hfetch : s.fetch = some w) (hdecode : decodeWord w = some i) (herr : operandError i s = none) : (completed i s).Inv := by
  have hmem' : (completed i s).mem.wf = true := effect_mem_wf herr hmem
  cases i
  case rndVxNN x nn => exact State.inv_of_rnd hmem' rfl ((suspended_fetch s _ _).trans hfetch) hdecode
  case ldVxK x => exact State.inv_of_ldVxK hmem' rfl ((suspended_fetch s _ _).trans hfetch) hdecode
  case ldVxDT x => exact State.inv_of_ldVxDT hmem' rfl ((suspended_fetch s _ _).trans hfetch) hdecode
  all_goals exact State.inv_of_ready hmem' hready

/-- The `step()` transaction keeps the invariant, in each of the four ways it can end (R235). -/
theorem engineStep_inv {s t : State} (hs : s.Inv) (h : engineStep machineParams s = .next t) : t.Inv := by
  rcases engineStep_machine_cases s with ⟨-, he⟩ | ⟨-, -, he⟩ | ⟨w, -, -, -, he⟩ | ⟨w, i, hready, hfetch, hdecode, he⟩ <;>
    rw [he] at h
  · rw [reject_next_iff] at h; subst h; exact hs
  · rw [raise_next_iff] at h; subst h; exact hs
  · rw [raise_next_iff] at h; subst h; exact hs
  · rcases exec_next_cases h with ⟨g, -, rfl⟩ | ⟨herr, rfl⟩
    · exact hs
    · exact completed_inv hs.1 hready hfetch hdecode herr

/-- A supply keeps the invariant: an accepted one ends the suspension, any other changes nothing (R216, R222). -/
theorem supply_inv {kind : Phase} {inRange : Bool} {value : Word → Byte} {s t : State} (hs : s.Inv)
    (h : supply kind inRange value s = .next t) : t.Inv := by
  rcases supply_cases kind inRange value s with ⟨w, -, -, -, hsupply⟩ | ⟨-, -, -, hsupply⟩ | ⟨-, hsupply⟩ <;>
    rw [hsupply] at h
  · cases h; exact State.inv_of_ready hs.1 rfl
  · cases h
  · rw [reject_next_iff] at h; subst h; exact hs

/-- Every transaction of the host keeps the invariant (R250). -/
theorem transact_inv {c : HostCall} {s t : State} (hs : s.Inv) (h : transact machineParams c s = .next t) : t.Inv := by
  cases c with
  | initializeWith image => cases h; exact State.inv_of_ready (initializeMachine_mem_wf machineParams image s) rfl
  | step => exact engineStep_inv hs h
  | supplyRandom byte => exact supply_inv hs h
  | supplyKey key => exact supply_inv hs h
  | supplyDelay ticks => exact supply_inv hs h
  | setKeys mask => cases h; exact hs
  | readFramebuffer => cases h; exact hs
  | readKeys => cases h; exact hs

/-- Settles O46: a step is one transaction of the host, and neither taking it from the queue nor counting a supplied value is seen by
the invariant. -/
theorem stepKeepsInvariant : Obligations.StepKeepsInvariant := by
  unfold Obligations.StepKeepsInvariant
  intro s t hs h
  cases hhost : s.host with
  | cons c rest =>
    rw [step_of_call hhost] at h
    exact transact_inv (s := { s with host := rest }) hs h
  | nil =>
    by_cases hready : s.phase = .ready
    · rw [step_of_ready hhost hready] at h
      exact engineStep_inv hs h
    · rw [step_of_suspended hhost hready] at h
      exact transact_inv (s := { s with draws := s.draws + 1 }) hs h

end Sys2Proof.Machine
end

section
/-! PROOFS. A register dump over the next instruction is what the next fetch reads (R51, R60). -/

namespace Sys2Proof.Machine

open Sys2Proof.Spec

/-- After a register dump inside memory, the byte at `I + k` is `x[k]`, for `k` up to X (R168). -/
theorem completed_ldMemVx_read {x k : Reg} {s : State} (hmem : s.mem.wf = true) (hin : s.I.toNat + x.val ≤ 0xFFF)
    (hk : k.val ≤ x.val) : (completed (.ldMemVx x) s).mem.read (s.I.toNat + k.val) = s.reg k := by
  have hread : (completed (.ldMemVx x) s).mem.read (s.I.toNat + k.val) = s.x[s.I.toNat + k.val - s.I.toNat] :=
    (Memory.read_writeRegs s.x (x.val + 1) x.isLt _ hmem (by rw [State.base]; omega)).trans
      (dif_pos (by rw [State.base]; omega))
  simp [hread, State.reg]

/-- A completed register dump with I at the next instruction leaves `pc` at I (R22). -/
theorem completed_ldMemVx_pc {x : Reg} {s : State} (hI : s.pc.toNat + 2 = s.I.toNat) :
    (completed (.ldMemVx x) s).pc = s.I := by
  have hpc : (completed (.ldMemVx x) s).pc = BitVec.ofNat 16 (s.pc.toNat + 2) := rfl
  rw [hpc, hI, BitVec.ofNat_toNat, BitVec.setWidth_eq]

/-- Settles O29: the dump completes, `pc` is then I, and the two bytes there are `x[0]` and `x[1]`. -/
theorem storeIsSeenByNextFetch : Obligations.StoreIsSeenByNextFetch := by
  unfold Obligations.StoreIsSeenByNextFetch
  intro x s t hmem hI hx hin h
  rcases exec_next_cases h with ⟨g, herr, -⟩ | ⟨-, rfl⟩
  · simp [operandError, Nat.not_lt.mpr hin] at herr
  · have hhigh := completed_ldMemVx_read (k := 0) hmem hin (Nat.zero_le _)
    have hlow := completed_ldMemVx_read (k := 1) hmem hin hx
    rw [State.fetch_eq_some_iff, completed_ldMemVx_pc hI]
    exact ⟨by omega, congrArg₂ wordOfBytes hhigh hlow⟩

end Sys2Proof.Machine
end

section
/-! PROOFS. The opcode map of R74: the fields each mask compares, the rows exclude each other, and decoding a word is looking it up
among the rows (R75, R76). -/

namespace Sys2Proof

open Sys2Proof.Spec

/-- Where the mask keeps exactly one key of a word, and all of the match's own bits, matching compares the two keys. -/
theorem matchesRow_eq_decide_key {α : Type} [DecidableEq α] {mask m : Word} {key : Word → α} {build : α → Word}
    (hmask : ∀ v, v &&& mask = build (key v)) (hkey : ∀ a, key (build a) = a) (hm : m &&& mask = m) (w : Word) :
    matchesRow w (m, mask) = decide (key w = key m) := by
  rw [Bool.eq_iff_iff, matchesRow, beq_iff_eq, decide_eq_true_iff]
  constructor
  · intro h
    rw [← hkey (key w), ← hmask, h]
  · intro h
    rw [hmask, h, ← hmask, hm]

/-- A row of mask 0xF000 fixes OP. -/
@[simp] theorem matchesRow_F000 {m : Word} (hm : m &&& 0xF000#16 = m) (w : Word) :
    matchesRow w (m, 0xF000#16) = decide (fieldOP w = m.extractLsb' 12 4) :=
  matchesRow_eq_decide_key (build := fun op => wordXI op 0 0) and_F000 (by simp) hm w

/-- A row of mask 0xF00F fixes OP and N. -/
@[simp] theorem matchesRow_F00F {m : Word} (hm : m &&& 0xF00F#16 = m) (w : Word) :
    matchesRow w (m, 0xF00F#16) = decide ((fieldOP w, fieldN w) = (m.extractLsb' 12 4, m.extractLsb' 0 4)) :=
  matchesRow_eq_decide_key (key := fun v => (fieldOP v, fieldN v)) (build := fun k => wordXY k.1 0 0 k.2) and_F00F (by simp) hm w

/-- A row of mask 0xF0FF fixes OP and NN. -/
@[simp] theorem matchesRow_F0FF {m : Word} (hm : m &&& 0xF0FF#16 = m) (w : Word) :
    matchesRow w (m, 0xF0FF#16) = decide ((fieldOP w, fieldNN w) = (m.extractLsb' 12 4, m.extractLsb' 0 8)) :=
  matchesRow_eq_decide_key (key := fun v => (fieldOP v, fieldNN v)) (build := fun k => wordXI k.1 0 k.2) and_F0FF (by simp) hm w

/-- A row of mask 0xFFFF is one word; that OP is fixed with it lets the family alone exclude the row. -/
@[simp] theorem matchesRow_FFFF (m w : Word) : matchesRow w (m, 0xFFFF#16) = decide (fieldOP w = m.extractLsb' 12 4 ∧ w = m) := by
  rw [Bool.eq_iff_iff, matchesRow, beq_iff_eq, decide_eq_true_iff, show w &&& 0xFFFF#16 = w from BitVec.and_allOnes]
  exact (and_iff_right_of_imp (congrArg fieldOP)).symm

/-! ## The rows exclude each other -/

/-- Of any two rows, one asks for 0 and the other for 1 in some bit that both masks keep (R75). -/
theorem rows_pairwise_disagree : rows.Pairwise fun r q => r.1 &&& q.2 ≠ q.1 &&& r.2 := by decide

theorem rows_nodup : rows.Nodup :=
  rows_pairwise_disagree.imp fun hne heq => hne (by rw [heq])

/-- No word matches two rows (R75). -/
theorem matchesRow_unique {w : Word} {r q : Word × Word} (hr : r ∈ rows) (hq : q ∈ rows) (hwr : matchesRow w r = true)
    (hwq : matchesRow w q = true) : r = q := by
  have hsymm : Std.Symm fun r q : Word × Word => r.1 &&& q.2 ≠ q.1 &&& r.2 := ⟨fun _ _ => Ne.symm⟩
  have hagree : r.1 &&& q.2 = q.1 &&& r.2 := by
    rw [matchesRow, beq_iff_eq] at hwr hwq
    rw [← hwr, ← hwq, BitVec.and_assoc, BitVec.and_assoc, BitVec.and_comm r.2]
  by_contra hne
  exact rows_pairwise_disagree.forall hr hq hne hagree

theorem length_matching_rows_le_one (w : Word) : (rows.filter (matchesRow w)).length ≤ 1 := by
  rw [← List.toFinset_card_of_nodup (rows_nodup.filter _), Finset.card_le_one]
  intro r hr q hq
  rw [List.mem_toFinset, List.mem_filter] at hr hq
  exact matchesRow_unique hr.1 hq.1 hr.2 hq.2

/-! ## Decoding is looking the word up among the rows -/

/-- Family 8 is the rows of OP 8, told apart by N. -/
theorem row_decodeFamily8 {w : Word} (hop : fieldOP w = 0x8#4) : (decodeFamily8 true w).map row = rows.find? (matchesRow w) := by
  unfold decodeFamily8
  split <;> simp_all [rows, row]

/-- Family F is the rows of OP F, told apart by NN. -/
theorem row_decodeFamilyF {w : Word} (hop : fieldOP w = 0xF#4) : (decodeFamilyF w).map row = rows.find? (matchesRow w) := by
  unfold decodeFamilyF
  split <;> simp_all [rows, row]

/-- The row of the decoded instruction is the row the word matches, and a word that decodes to nothing matches none (R75, R76). -/
theorem row_decodeWordWith (w : Word) : (decodeWordWith true w).map row = rows.find? (matchesRow w) := by
  unfold decodeWordWith
  split
  case h_9 hop => exact row_decodeFamily8 hop
  case h_16 =>
    have hop : fieldOP w = 0xF#4 := by
      generalize fieldOP w = op at *
      decide +revert
    exact row_decodeFamilyF hop
  -- OP 0, 5, 9 and E, which compare one more field; every other OP is one row by itself
  case h_1 | h_6 | h_10 | h_15 => split_ifs <;> simp_all [rows, row]
  all_goals simp_all [rows, row]

theorem find?_rows_of_decode {w : Word} {i : Instr} (h : decodeWordWith true w = some i) :
    rows.find? (matchesRow w) = some (row i) := by
  rw [← row_decodeWordWith, h, Option.map_some]

theorem find?_rows_of_matchesRow {w : Word} {r : Word × Word} (hr : r ∈ rows) (hw : matchesRow w r = true) :
    rows.find? (matchesRow w) = some r := by
  obtain ⟨q, hq⟩ := Option.isSome_iff_exists.mp (List.find?_isSome.mpr ⟨r, hr, hw⟩)
  rw [hq, matchesRow_unique (List.mem_of_find?_eq_some hq) hr (List.find?_some hq) hw]

/-! ## The setting of ADMIT_8XY0 -/

theorem decodeFamily8_false (w : Word) : decodeFamily8 false w = if fieldN w = 0x0#4 then none else decodeFamily8 true w := by
  unfold decodeFamily8
  split <;> simp_all

/-- Outside family 8 the setting is not read. -/
theorem decodeWordWith_eq_of_fieldOP_ne {w : Word} (hop : fieldOP w ≠ 0x8#4) (a b : Bool) :
    decodeWordWith a w = decodeWordWith b w := by
  unfold decodeWordWith
  split <;> simp_all

theorem decodeWordWith_of_fieldOP_eq {w : Word} (hop : fieldOP w = 0x8#4) (a : Bool) : decodeWordWith a w = decodeFamily8 a w := by
  simp [decodeWordWith, hop]

theorem decodeWordWith_false (w : Word) :
    decodeWordWith false w = if matchesRow w (0x8000#16, 0xF00F#16) then none else decodeWordWith true w := by
  by_cases hop : fieldOP w = 0x8#4
  · simp [decodeWordWith_of_fieldOP_eq hop, decodeFamily8_false, hop]
  · simp [decodeWordWith_eq_of_fieldOP_ne hop false true, hop]

/-- Settles O4: the decoder finds the row a word matches, and the rows exclude each other. -/
theorem opcodeMapIsExact : Obligations.OpcodeMapIsExact := by
  unfold Obligations.OpcodeMapIsExact
  refine ⟨length_matching_rows_le_one, fun w i h => ?_, fun w r hr hw => ?_, decodeWordWith_false⟩
  · have hfind := find?_rows_of_decode h
    exact ⟨List.mem_of_find?_eq_some hfind, List.find?_some hfind⟩
  · exact Option.map_eq_some_iff.mp ((row_decodeWordWith w).trans (find?_rows_of_matchesRow hr hw))

end Sys2Proof
end

section
/-! PROOFS. Control transfer and the skips (R105 to R113), calls and returns in a row (R24), and what a `step` of a decoded instruction
is (R100, R103). -/

namespace Sys2Proof.Machine

open Sys2Proof.Spec Sys2Proof.Laws

/-! The two ways an instruction ends, by its operand check. -/

theorem exec_of_no_error {i : Instr} {s : State} (h : operandError i s = none) : exec i s = .next (completed i s) := by
  rw [exec_eq_next, afterExec, h]; rfl

theorem exec_of_error {i : Instr} {s : State} {g : Signal} (h : operandError i s = some g) :
    exec i s = .next { s with returned := .signal g } := by
  rw [exec_eq_next, afterExec, h]; rfl

/-- Settles O51: `completed` takes the signal from the spec's table. -/
theorem signalsWithoutError : Obligations.SignalsWithoutError := by
  unfold Obligations.SignalsWithoutError
  exact fun i s h => ⟨completed i s, exec_of_no_error h, rfl⟩

/-! CALL and RET, by the depth of the call stack (R105, R107). -/

/-- CALL with slot `k` free pushes its own address there. -/
theorem exec_callNNN_of_sp {s : State} {k : Fin 16} (nnn : Addr) (h : s.sp = k.castSucc) :
    exec (.callNNN nnn) s = .next
      { s with stack := s.stack.set k.val s.pc, sp := k.succ, pc := BitVec.ofNat 16 nnn.toNat, returned := .signal .completed } := by
  obtain ⟨⟩ := s
  subst h
  exact (dif_pos k.isLt).trans (transfer_eq _ (addrOperand_eq_ofNat nnn))

theorem exec_callNNN_of_full {s : State} (nnn : Addr) (h : s.sp = 16) :
    exec (.callNNN nnn) s = .next { s with returned := .signal .stackOverflow } :=
  exec_of_error (by simp [operandError, h])

/-- RET with slot `k` the last live one resumes after the CALL whose address stands there; at a successor depth its check for an
empty stack computes. -/
theorem exec_ret_of_sp {s : State} {k : Fin 16} (h : s.sp = k.succ) :
    exec .ret s = .next { s with sp := k.castSucc, pc := s.stack[k] + 2, returned := .signal .completed } := by
  obtain ⟨⟩ := s
  subst h
  rfl

theorem exec_ret_of_empty {s : State} (h : s.sp = 0) : exec .ret s = .next { s with returned := .signal .stackUnderflow } :=
  exec_of_error (by simp [operandError, h])

theorem execAll_cons_of_next {i : Instr} {s t : State} (is : List Instr) (h : exec i s = .next t) :
    execAll (i :: is) s = execAll is t := by
  rw [execAll, h]

/-- Calls succeed while there is a free slot for each, and `sp` counts them. -/
theorem execAll_calls (targets : List Addr) {s : State} (hroom : s.sp.val + targets.length ≤ 16) :
    ∃ t, execAll (targets.map .callNNN) s = .next t ∧ t.sp.val = s.sp.val + targets.length := by
  induction targets generalizing s with
  | nil => exact ⟨s, rfl, rfl⟩
  | cons nnn targets ih =>
    rw [List.length_cons] at hroom
    have hcall := exec_callNNN_of_sp (k := ⟨s.sp.val, by omega⟩) nnn rfl
    rw [List.map_cons, execAll_cons_of_next _ hcall, List.length_cons, Nat.add_comm targets.length, ← Nat.add_assoc]
    exact ih (by simp only [Fin.val_succ]; omega)

/-- Settles O57: the calls in a row, and the overflow of CALL at depth 16. -/
theorem sixteenCallsSucceed : Obligations.SixteenCallsSucceed := by
  unfold Obligations.SixteenCallsSucceed
  intro targets s hroom
  obtain ⟨t, hrun, hsp⟩ := execAll_calls targets hroom
  exact ⟨t, hrun, hsp, fun hfull nnn => exec_callNNN_of_full nnn (Fin.ext hfull)⟩

/-- Settles O58: the CALL pushes its address at slot `k`, the old depth, and the RET pops that slot. -/
theorem retUndoesCall : Obligations.RetUndoesCall := by
  unfold Obligations.RetUndoesCall
  intro nnn s hroom
  obtain ⟨k, hsp⟩ : ∃ k : Fin 16, s.sp = k.castSucc := ⟨⟨s.sp.val, hroom⟩, rfl⟩
  refine ⟨_, (execAll_cons_of_next _ (exec_callNNN_of_sp nnn hsp)).trans (execAll_cons_of_next [] (exec_ret_of_sp rfl)), ?_,
    fun j hj => ?_⟩
  · simp [hsp]
  · have hne : k.val ≠ j.val := by rw [hsp] at hj; exact hj.symm
    exact Vector.getElem_set_ne k.isLt j.isLt hne

/-! The step that runs a decoded instruction. -/

theorem decodeWord_of_decode {hi lo : Byte} {i : Instr} {rest : List Byte} (h : decode [hi, lo] = .ok (i, rest)) :
    decodeWord (wordOfBytes hi lo) = some i := by
  rw [decode] at h
  cases hword : decodeWord (wordOfBytes hi lo) with
  | none => rw [hword] at h; cases h
  | some j => rw [hword] at h; cases h; rfl

/-- Settles O5: the case of O59 at this machine's own parameters. -/
theorem stepRunsDecodedInstruction : Obligations.StepRunsDecodedInstruction := by
  unfold Obligations.StepRunsDecodedInstruction
  intro s i hready hpc hdecode
  obtain ⟨hruns, -⟩ := stepUnderEveryParameter machineParams s hready hpc
  obtain ⟨hidle, hcall⟩ := hruns i (decodeWord_of_decode hdecode)
  exact ⟨fun hhost => (hidle hhost).trans (execWith_machine i s),
    fun rest hhost => (hcall rest hhost).trans (execWith_machine i { s with host := rest })⟩

/-! The single instructions. -/

/-- Settles O9: RET by depth, an empty stack or a last live slot. -/
theorem retPopsTheStack : Obligations.RetPopsTheStack := by
  unfold Obligations.RetPopsTheStack
  exact ⟨RoundTrip.ret _ rfl, fun s => ⟨exec_ret_of_empty, fun k => exec_ret_of_sp⟩⟩

/-- Settles O10: JP has no operand check, and its row of R22's table is NNN. -/
theorem jpWritesPc : Obligations.JpWritesPc := by
  unfold Obligations.JpWritesPc
  exact fun nnn s => ⟨RoundTrip.jpNNN nnn _ rfl, exec_of_no_error rfl⟩

/-- Settles O11: CALL by depth, a full stack or a first free slot. -/
theorem callPushesItsOwnAddress : Obligations.CallPushesItsOwnAddress := by
  unfold Obligations.CallPushesItsOwnAddress
  exact fun nnn s => ⟨RoundTrip.callNNN nnn _ rfl, exec_callNNN_of_full nnn, fun k => exec_callNNN_of_sp nnn⟩

/-- The end of a skip whose condition is `p`. -/
theorem skipIf_of_iff {c : Bool} {p : Prop} [Decidable p] (h : c = true ↔ p) (s : State) :
    skipIf c s = .next { s with pc := if p then s.pc + 4 else s.pc + 2, returned := .signal .completed } := by
  cases c
  · rw [if_neg (mt h.mpr Bool.false_ne_true)]; rfl
  · rw [if_pos (h.mp rfl)]; rfl

/-- Settles O12: the two conditions are the comparison of x[X] with NN and its negation. -/
theorem immediateSkips : Obligations.ImmediateSkips := by
  unfold Obligations.ImmediateSkips
  exact fun x nn s => ⟨RoundTrip.seVxNN x nn _ rfl, RoundTrip.sneVxNN x nn _ rfl, skipIf_of_iff beq_iff_eq s,
    skipIf_of_iff bne_iff_ne s⟩

/-- The words 5XYN and 9XYN with N not 0 are no instructions (R76). -/
theorem decodeWord_wordXY_of_ne {op n : Nibble} (x y : Reg) (hop : op = 0x5 ∨ op = 0x9) (hn : n ≠ 0#4) :
    decodeWord (wordXY op x y n) = none := by
  rcases hop with rfl | rfl <;> simp [decodeWord, decodeWordWith, hn]

/-- Settles O13: the two conditions are the comparison of x[X] with x[Y] and its negation. -/
theorem registerSkips : Obligations.RegisterSkips := by
  unfold Obligations.RegisterSkips
  exact fun x y s => ⟨RoundTrip.seVxVy x y _ rfl, RoundTrip.sneVxVy x y _ rfl,
    fun n hn => ⟨decodeWord_wordXY_of_ne x y (.inl rfl) hn, decodeWord_wordXY_of_ne x y (.inr rfl) hn⟩, skipIf_of_iff beq_iff_eq s,
    skipIf_of_iff bne_iff_ne s⟩

/-- Settles O14: the sum of a 12-bit and an 8-bit number fits 16 bits. -/
theorem jpV0AddsRegisterZero : Obligations.JpV0AddsRegisterZero := by
  unfold Obligations.JpV0AddsRegisterZero
  intro nnn s
  have hfits : nnn.toNat + (s.reg 0).toNat < 2 ^ 16 := by have := nnn.isLt; have := (s.reg 0).isLt; omega
  exact ⟨RoundTrip.jpV0NNN nnn _ rfl, _, (BitVec.toNat_ofNat _ _).trans (Nat.mod_eq_of_lt hfits), exec_of_no_error rfl⟩

end Sys2Proof.Machine
end

section
/-! PROOFS. Register loads and the 8-bit ALU (R130 to R152): the results and flags as numbers, the laws that tie a result to its flag,
and what an instruction that writes both leaves. -/

namespace Sys2Proof.Machine

open Sys2Proof.Spec Sys2Proof.Laws

/-! ## Results and flags as numbers -/

theorem add_eq_ofNat (a b : Byte) : a + b = BitVec.ofNat 8 ((a.toNat + b.toNat) % 256) :=
  (BitVec.toNat_eq_nat.mp (BitVec.toNat_add a b)).2

theorem sub_eq_ofNat (a b : Byte) : a - b = BitVec.ofNat 8 ((a.toNat + 256 - b.toNat) % 256) :=
  (BitVec.toNat_eq_nat.mp (by have := b.isLt; rw [BitVec.toNat_sub]; omega)).2

theorem toNat_shiftRight_one (v : Byte) : (v >>> 1).toNat = v.toNat / 2 := by
  rw [BitVec.toNat_ushiftRight, Nat.shiftRight_one]

theorem toNat_shiftLeft_one (v : Byte) : (v <<< 1).toNat = v.toNat * 2 % 256 := by
  rw [BitVec.toNat_shiftLeft, Nat.shiftLeft_eq, pow_one]

theorem flagByte_decide (p : Prop) [Decidable p] : flagByte (decide p) = if p then 1 else 0 := by
  by_cases h : p <;> simp [flagByte, h]

theorem toNat_flagByte (b : Bool) : (flagByte b).toNat = b.toNat := by cases b <;> rfl

/-- The carry is the part of the sum above the byte. -/
theorem toNat_carryFlag (a b : Byte) : (carryFlag a b).toNat = (a.toNat + b.toNat) / 256 := by
  have := a.isLt
  have := b.isLt
  rw [carryFlag, toNat_flagByte]
  by_cases h : a.toNat + b.toNat > 255
  · rw [decide_eq_true h, Bool.toNat_true]; omega
  · rw [decide_eq_false h, Bool.toNat_false]; omega

theorem toNat_shiftedOutLow (v : Byte) : (shiftedOutLow v).toNat = v.toNat % 2 := by
  rw [shiftedOutLow, toNat_flagByte, ← BitVec.testBit_toNat, Nat.toNat_testBit, pow_zero, Nat.div_one]

theorem toNat_shiftedOutHigh (v : Byte) : (shiftedOutHigh v).toNat = v.toNat / 128 := by
  have := v.isLt
  rw [shiftedOutHigh, toNat_flagByte, ← BitVec.testBit_toNat, Nat.toNat_testBit]
  omega

theorem shiftOperand_eq_ite (src : ShiftSource) (s : State) (x y : Reg) :
    shiftOperand src s x y = if src = .x then s.reg x else s.reg y := by
  cases src <;> rfl

/-! ## The laws that tie a result to its flag (R152) -/

theorem add_carry_law (a b : Byte) : (a + b).toNat + 256 * (carryFlag a b).toNat = a.toNat + b.toNat := by
  rw [BitVec.toNat_add, toNat_carryFlag]
  omega

theorem sub_noBorrow_law (a b : Byte) : ((a - b).toNat : Int) = a.toNat - b.toNat + 256 * (1 - (noBorrowFlag a b).toNat) := by
  have := a.isLt
  have := b.isLt
  rw [BitVec.toNat_sub, noBorrowFlag, toNat_flagByte]
  by_cases h : a.toNat ≥ b.toNat
  · rw [decide_eq_true h, Bool.toNat_true]; omega
  · rw [decide_eq_false h, Bool.toNat_false]; omega

theorem shiftRight_law (v : Byte) : 2 * (v >>> 1).toNat + (shiftedOutLow v).toNat = v.toNat := by
  rw [toNat_shiftRight_one, toNat_shiftedOutLow]
  omega

theorem shiftLeft_law (v : Byte) : (v <<< 1).toNat + 256 * (shiftedOutHigh v).toNat = 2 * v.toNat := by
  rw [toNat_shiftLeft_one, toNat_shiftedOutHigh]
  omega

/-! ## What the instruction leaves -/

/-- The end of an instruction that writes one register and no flag. -/
theorem complete_setReg {v v' : Byte} (x : Reg) (s : State) (h : v = v') :
    complete .completed (s.setReg x v) =
      .next { s with x := s.x.set x.val v', pc := s.pc + 2, returned := .signal .completed } := by
  rw [h]; rfl

/-- The end of an instruction that writes a result and then a flag (R132). -/
theorem complete_writeResultAndFlag {res res' flag flag' : Byte} (x : Reg) (s : State) (hres : res = res') (hflag : flag = flag') :
    complete .completed (s.writeResultAndFlag x res flag) =
      .next { s with x := (s.x.set x.val res').set 15 flag', pc := s.pc + 2, returned := .signal .completed } := by
  rw [hres, hflag]; rfl

section
variable {x : Reg} {res flag : Byte} {s t : State} (h : complete .completed (s.writeResultAndFlag x res flag) = .next t)
include h

/-- The flag stands in `x[15]` whatever the destination (R150). -/
theorem reg_flag_of_complete : t.reg 15 = flag := by
  rw [complete_next_iff] at h
  subst h
  exact s.writeResultAndFlag_reg_flag x res flag

theorem reg_dest_of_complete (hx : x ≠ 15) : t.reg x = res := by
  rw [complete_next_iff] at h
  subst h
  exact s.writeResultAndFlag_reg_dest x res flag hx

end

/-- Settles O15: the immediate load and the add modulo 256. -/
theorem immediateLoadAndAdd : Obligations.ImmediateLoadAndAdd := by
  unfold Obligations.ImmediateLoadAndAdd
  exact fun x nn s => ⟨RoundTrip.ldVxNN x nn _ rfl, RoundTrip.addVxNN x nn _ rfl, complete_setReg x s rfl,
    complete_setReg x s (add_eq_ofNat _ _)⟩

/-- Settles O16: with ADMIT_8XY0 false the row 8XY0 is struck from the map. -/
theorem registerMove : Obligations.RegisterMove := by
  unfold Obligations.RegisterMove
  intro x y s
  have hrow : matchesRow (wordXY 0x8 x y 0x0) (0x8000#16, 0xF00F#16) = true := by simp
  exact ⟨RoundTrip.ldVxVy x y true rfl, (decodeWordWith_false _).trans (if_pos hrow), complete_setReg x s rfl⟩

/-- Settles O17: each operation writes one register. -/
theorem logicOperations : Obligations.LogicOperations := by
  unfold Obligations.LogicOperations
  exact fun x y s => ⟨RoundTrip.orVxVy x y _ rfl, RoundTrip.andVxVy x y _ rfl, RoundTrip.xorVxVy x y _ rfl,
    complete_setReg x s rfl, complete_setReg x s rfl, complete_setReg x s rfl⟩

/-- Settles O18: the sum and the carry as numbers. -/
theorem addWithCarryFlag : Obligations.AddWithCarryFlag := by
  unfold Obligations.AddWithCarryFlag
  exact fun x y s => ⟨RoundTrip.addVxVy x y _ rfl,
    complete_writeResultAndFlag x s (add_eq_ofNat _ _) (flagByte_decide _)⟩

/-- Settles O19: SUBN is SUB with the operands exchanged, its destination kept. -/
theorem subtractWithNoBorrowFlag : Obligations.SubtractWithNoBorrowFlag := by
  unfold Obligations.SubtractWithNoBorrowFlag
  exact fun x y s => ⟨RoundTrip.subVxVy x y _ rfl, RoundTrip.subnVxVy x y _ rfl,
    complete_writeResultAndFlag x s (sub_eq_ofNat _ _) (flagByte_decide _),
    complete_writeResultAndFlag x s (sub_eq_ofNat _ _) (flagByte_decide _)⟩

theorem shiftRight_eq_next {src : ShiftSource} {x y : Reg} {s : State} {v : Byte} (hv : v = if src = .x then s.reg x else s.reg y) :
    shiftRight src x y s = .next
      { s with
        x := (s.x.set x.val (BitVec.ofNat 8 (v.toNat / 2))).set 15 (BitVec.ofNat 8 (v.toNat % 2))
        pc := s.pc + 2
        returned := .signal .completed } := by
  rw [shiftRight, shiftOperand_eq_ite, ← hv]
  exact complete_writeResultAndFlag x s (BitVec.toNat_eq_nat.mp (toNat_shiftRight_one v)).2
    (BitVec.toNat_eq_nat.mp (toNat_shiftedOutLow v)).2

/-- Settles O20: the same shift under each source, this machine's own included. -/
theorem shiftRightByOne : Obligations.ShiftRightByOne := by
  unfold Obligations.ShiftRightByOne
  exact fun x y s => ⟨RoundTrip.shrVxVy x y _ rfl, fun _ _ => shiftRight_eq_next, fun _ => shiftRight_eq_next⟩

theorem shiftLeft_eq_next {src : ShiftSource} {x y : Reg} {s : State} {v : Byte} (hv : v = if src = .x then s.reg x else s.reg y) :
    shiftLeft src x y s = .next
      { s with
        x := (s.x.set x.val (BitVec.ofNat 8 (v.toNat * 2 % 256))).set 15 (BitVec.ofNat 8 (v.toNat / 128))
        pc := s.pc + 2
        returned := .signal .completed } := by
  rw [shiftLeft, shiftOperand_eq_ite, ← hv]
  exact complete_writeResultAndFlag x s (BitVec.toNat_eq_nat.mp (toNat_shiftLeft_one v)).2
    (BitVec.toNat_eq_nat.mp (toNat_shiftedOutHigh v)).2

/-- Settles O21: the same shift under each source, this machine's own included. -/
theorem shiftLeftByOne : Obligations.ShiftLeftByOne := by
  unfold Obligations.ShiftLeftByOne
  exact fun x y s => ⟨RoundTrip.shlVxVy x y _ rfl, fun _ _ => shiftLeft_eq_next, fun _ => shiftLeft_eq_next⟩

/-- Settles O22: the flag is written last, and every operand is read before the writes. -/
theorem flagWinsOverResult : Obligations.FlagWinsOverResult := by
  unfold Obligations.FlagWinsOverResult
  intro y s
  refine ⟨⟨_, rfl, ?_⟩, ⟨_, rfl, ?_⟩, ⟨_, rfl, ?_⟩, fun src v hv => ⟨⟨_, rfl, ?_⟩, ⟨_, rfl, ?_⟩⟩, fun x hx => ⟨_, rfl, ?_⟩⟩
  · rw [reg_flag_of_complete rfl, toNat_carryFlag]
  · exact (reg_flag_of_complete rfl).trans (flagByte_decide _)
  · exact (reg_flag_of_complete rfl).trans (flagByte_decide _)
  · rw [reg_flag_of_complete rfl, toNat_shiftedOutLow, shiftOperand_eq_ite, ← hv]
  · rw [reg_flag_of_complete rfl, toNat_shiftedOutHigh, shiftOperand_eq_ite, ← hv]
  · rw [reg_dest_of_complete rfl hx, BitVec.toNat_add]

/-- Settles O23: with X not 15 both writes stand, and R152 is a law of the result and its flag. -/
theorem arithmeticLawsOfTheFlag : Obligations.ArithmeticLawsOfTheFlag := by
  unfold Obligations.ArithmeticLawsOfTheFlag
  intro x y s t hx
  refine ⟨fun h => ?_, fun h => ?_, fun h => ?_, fun src v hv => ⟨fun h => ?_, fun h => ?_⟩⟩
  · rw [reg_dest_of_complete h hx, reg_flag_of_complete h, add_carry_law]
  · rw [reg_dest_of_complete h hx, reg_flag_of_complete h, sub_noBorrow_law]
  · rw [reg_dest_of_complete h hx, reg_flag_of_complete h, sub_noBorrow_law]
  · rw [reg_dest_of_complete h hx, reg_flag_of_complete h, shiftRight_law, shiftOperand_eq_ite, hv]
  · rw [reg_dest_of_complete h hx, reg_flag_of_complete h, shiftLeft_law, shiftOperand_eq_ite, hv]

end Sys2Proof.Machine
end

section
/-! PROOFS. The index register and the memory instructions (R160 to R170): the sums and multiples as numbers, and the bytes and
registers a completed transfer leaves. -/

namespace Sys2Proof.Machine

open Sys2Proof.Spec Sys2Proof.Laws

/-- A plain instruction whose operand check passes: its writes stand, and `pc` goes on by 2 (R22). -/
theorem exec_of_plain {i : Instr} {s : State} (herr : operandError i s = none) (hpc : nextPc i s = s.pc.toNat + 2) :
    exec i s = .next { effect i s with pc := s.pc + 2, returned := .signal (goodSignal i) } := by
  rw [exec_of_no_error herr, completed, hpc, ofNat_toNat_add]; rfl

/-! ## The index register -/

theorem add_regOperand16_eq_ofNat (s : State) (x : Reg) :
    s.I + regOperand16 s x = BitVec.ofNat 16 ((s.I.toNat + (s.reg x).toNat) % 2 ^ 16) := by
  rw [regOperand16_eq_ofNat, ← ofNat_toNat_add]
  exact BitVec.eq_of_toNat_eq (by simp)

/-- The address of the digit's glyph, five bytes a glyph (R34, R164). -/
theorem five_mul_regOperand16_eq_ofNat (s : State) (x : Reg) : 5 * regOperand16 s x = BitVec.ofNat 16 (5 * (s.reg x).toNat) := by
  rw [regOperand16_eq_ofNat, BitVec.ofNat_mul]; rfl

/-- Settles O24: neither instruction has an operand check; the sum is the one of 16-bit words. -/
theorem indexLoadAndAdd : Obligations.IndexLoadAndAdd := by
  unfold Obligations.IndexLoadAndAdd
  intro nnn x s
  refine ⟨RoundTrip.ldINNN nnn _ rfl, RoundTrip.addIVx x _ rfl, ?_, ?_⟩
  · rw [← addrOperand_eq_ofNat]
    exact exec_of_plain rfl rfl
  · rw [← add_regOperand16_eq_ofNat]
    exact exec_of_plain rfl rfl

/-- Settles O25: the check of the digit passes up to 15. -/
theorem fontAddress : Obligations.FontAddress := by
  unfold Obligations.FontAddress
  intro x s
  refine ⟨RoundTrip.ldFVx x _ rfl, fun hdigit => ?_, fun hbad => exec_of_error (if_pos hbad)⟩
  rw [← five_mul_regOperand16_eq_ofNat]
  exact exec_of_plain (if_neg (by omega)) rfl

/-! ## BCD -/

theorem Memory.read_writeBytes_add {m : Memory} {a k : Nat} (vs : List Byte) (hm : m.wf = true) (ha : a + vs.length ≤ 0x1000)
    (hk : k < vs.length) : (m.writeBytes a vs).read (a + k) = vs[k] := by
  rw [Memory.read_writeBytes vs _ hm ha, if_pos (by omega), Nat.add_sub_cancel_left, List.getD_eq_getElem _ _ hk]

/-- Each decimal digit of a byte fits its byte. -/
theorem toNat_bcdDigits (v : Byte) : (bcdDigits v).map BitVec.toNat = [v.toNat / 100, v.toNat / 10 % 10, v.toNat % 10] := by
  have hlt := v.isLt
  simp (disch := omega) only [bcdDigits, List.map_cons, List.map_nil, BitVec.toNat_ofNat, Nat.mod_eq_of_lt]

/-- The bytes BCD stores, as numbers (R166). -/
theorem toNat_read_bcdDigits {m : Memory} {a : Nat} (v : Byte) (hm : m.wf = true) (ha : a + 2 ≤ 0xFFF) (k : Fin 3) :
    ((m.writeBytes a (bcdDigits v)).read (a + k)).toNat = [v.toNat / 100, v.toNat / 10 % 10, v.toNat % 10][k] := by
  have hk : k < (bcdDigits v).length := k.isLt
  rw [Memory.read_writeBytes_add _ hm (by rw [bcdDigits_length]; omega) hk]
  simp only [← toNat_bcdDigits, Fin.getElem_fin, List.getElem_map]

/-- Settles O26: the three digits are written at ascending addresses from I, all inside memory, or the check raises. -/
theorem bcdStoresThreeDigits : Obligations.BcdStoresThreeDigits := by
  unfold Obligations.BcdStoresThreeDigits
  intro x s hmem
  refine ⟨RoundTrip.bcdVx x _ rfl, fun hin => ?_, fun hout => exec_of_error (if_pos hout)⟩
  have hdigit := toNat_read_bcdDigits (s.reg x) hmem hin
  refine ⟨_, exec_of_plain (if_neg (by omega)) rfl, hdigit 0, hdigit 1, hdigit 2, fun a ha => ?_⟩
  have hlen := bcdDigits_length (s.reg x)
  exact (Memory.read_writeBytes _ a hmem (by rw [State.base]; omega)).trans (if_neg (by rw [State.base]; omega))

/-! ## The register transfers -/

/-- Settles O27: the dump inside memory stores `x[k]` at `I + k` and writes nothing elsewhere, or the check raises. -/
theorem registerDump : Obligations.RegisterDump := by
  unfold Obligations.RegisterDump
  intro x s hmem
  refine ⟨RoundTrip.ldMemVx x _ rfl, fun hin => ?_, fun hout => exec_of_error (if_pos hout)⟩
  refine ⟨_, exec_of_plain (if_neg (by omega)) rfl, fun k hk => completed_ldMemVx_read hmem hin hk, fun a ha => ?_⟩
  exact (Memory.read_writeRegs s.x (x.val + 1) x.isLt a hmem (by rw [State.base]; omega)).trans
    (dif_neg (by rw [State.base]; omega))

/-- Settles O28: `k` up to X is `k` below the number of registers loaded. -/
theorem registerLoad : Obligations.RegisterLoad := by
  unfold Obligations.RegisterLoad
  intro x s
  refine ⟨RoundTrip.ldVxMem x _ rfl, fun hin => ?_, fun hout => exec_of_error (if_pos hout)⟩
  refine ⟨_, exec_of_plain (if_neg (by omega)) rfl, fun k => ?_⟩
  have hloaded : k.val < x.val + 1 ↔ k ≤ x := Nat.lt_succ_iff
  exact (Memory.getElem_readRegs s.mem s.base s.x (x.val + 1) x.isLt k.val k.isLt).trans (if_congr hloaded rfl rfl)

end Sys2Proof.Machine
end

section
/-! PROOFS. The display (R180 to R186): CLS, and DRW as the XOR of the framebuffer with its sprite's mask. -/

namespace Sys2Proof.Machine

open Sys2Proof.Spec Sys2Proof.Laws

/-- Settles O8: CLS has no operand check, and it writes the blank screen. -/
theorem clsUnsetsEveryPixel : Obligations.ClsUnsetsEveryPixel := by
  unfold Obligations.ClsUnsetsEveryPixel
  exact ⟨RoundTrip.cls _ rfl, fun s => ⟨Framebuffer.blank, exec_of_plain rfl rfl, Framebuffer.pixel_blank⟩⟩

/-! ## Where a sprite pixel lands (R183) -/

/-- The landing of the draw is the one of the spec. -/
theorem landing_eq_some_iff (mode : EdgeMode) (tx ty : Nat) (px : Fin 64) (py : Fin 32) :
    landing mode tx ty = some (px, py) ↔ lands mode tx ty px py := by
  have := px.isLt
  have := py.isLt
  unfold landing
  split
  · cases mode
    · simp only [lands, Option.some.injEq, Prod.mk.injEq, Fin.ext_iff]
    · simp only [lands, Option.some.injEq, Prod.mk.injEq, Fin.ext_iff]; omega
  · cases mode
    · simp only [lands, reduceCtorEq, false_iff]; omega
    · simp only [lands, Option.some.injEq, Prod.mk.injEq, Fin.ext_iff]

/-- Two pixels of one sprite never land in one place: a sprite is smaller than the screen. -/
theorem lands_inj {mode : EdgeMode} {x0 y0 r c r' c' : Nat} {px : Fin 64} {py : Fin 32} (hr : r < 32) (hc : c < 64) (hr' : r' < 32)
    (hc' : c' < 64) (h : lands mode (x0 + c) (y0 + r) px py) (h' : lands mode (x0 + c') (y0 + r') px py) : r = r' ∧ c = c' := by
  cases mode <;> simp only [lands] at h h' <;> omega

/-! ## A drawing that flips a mask -/

theorem Framebuffer.ext_pixel {fb fb' : Framebuffer} (h : ∀ px py, fb.pixel px py = fb'.pixel px py) : fb = fb' :=
  Vector.ext fun py hy => Vector.ext fun px hx => h ⟨px, hx⟩ ⟨py, hy⟩

/-- R186(a): against the framebuffer at the start, the drawing has flipped exactly the pixels of the mask `M`, and its hit tells
whether one of them was set. -/
structure Drawing.Flips (d : Drawing) (fb : Framebuffer) (M : Fin 64 → Fin 32 → Prop) : Prop where
  pixel_ne : ∀ px py, d.1.pixel px py ≠ fb.pixel px py ↔ M px py
  hit : d.2 = true ↔ ∃ px py, M px py ∧ fb.pixel px py = true

section
variable {d : Drawing} {fb : Framebuffer} {M M' : Fin 64 → Fin 32 → Prop}

/-- Before any pixel is drawn the mask is empty. -/
theorem Drawing.flips_start (fb : Framebuffer) (hM : ∀ px py, ¬M px py) : Drawing.Flips (fb, false) fb M where
  pixel_ne px py := by simp [hM px py]
  hit := by simp [hM]

theorem Drawing.Flips.congr (hd : d.Flips fb M) (h : ∀ px py, M px py ↔ M' px py) : d.Flips fb M' := by
  rwa [← funext₂ fun px py => propext (h px py)]

theorem Drawing.Flips.pixel_eq_of_not_mem (hd : d.Flips fb M) {px : Fin 64} {py : Fin 32} (h : ¬M px py) :
    d.1.pixel px py = fb.pixel px py :=
  Classical.not_not.mp (mt (hd.pixel_ne px py).mp h)

theorem Drawing.Flips.pixel_eq_not_of_mem (hd : d.Flips fb M) {px : Fin 64} {py : Fin 32} (h : M px py) :
    d.1.pixel px py = !fb.pixel px py :=
  Bool.eq_not.mpr ((hd.pixel_ne px py).mpr h)

/-- Inverting a pixel outside the mask adds it to the mask. -/
theorem Drawing.Flips.invert (hd : d.Flips fb M) {px : Fin 64} {py : Fin 32} (hnew : ¬M px py) :
    Drawing.Flips (d.1.setPixel px py (!d.1.pixel px py), d.2 || d.1.pixel px py) fb
      fun qx qy => M qx qy ∨ (qx = px ∧ qy = py) where
  pixel_ne qx qy := by
    rw [Framebuffer.pixel_setPixel]
    by_cases hq : qx = px ∧ qy = py
    · obtain ⟨rfl, rfl⟩ := hq
      simp [hd.pixel_eq_of_not_mem hnew]
    · simp [hq, ← hd.pixel_ne]
  hit := by
    rw [Bool.or_eq_true, hd.hit, hd.pixel_eq_of_not_mem hnew]
    constructor
    · rintro (⟨qx, qy, hM, hset⟩ | hset)
      · exact ⟨qx, qy, .inl hM, hset⟩
      · exact ⟨px, py, .inr ⟨rfl, rfl⟩, hset⟩
    · rintro ⟨qx, qy, hM | ⟨rfl, rfl⟩, hset⟩
      · exact .inl ⟨qx, qy, hM, hset⟩
      · exact .inr hset

/-- A set sprite pixel that lands outside the mask adds its landing place, if it has one. -/
theorem Drawing.Flips.drawPixel {mode : EdgeMode} {tx ty : Nat} (hd : d.Flips fb M)
    (hnew : ∀ px py, lands mode tx ty px py → ¬M px py) :
    Drawing.Flips (drawPixel mode tx ty d) fb fun px py => M px py ∨ lands mode tx ty px py := by
  simp only [← landing_eq_some_iff] at hnew ⊢
  unfold Machine.drawPixel
  cases hland : landing mode tx ty with
  | none => exact hd.congr fun px py => by simp
  | some p =>
    obtain ⟨px, py⟩ := p
    exact (hd.invert (hnew px py hland)).congr fun qx qy => by simp [eq_comm]

end

/-! ## The sprite's mask, pixel by pixel in the order of R184 -/

section
variable (mode : EdgeMode) (m : Memory) (a x0 y0 : Nat)

/-- The landing places of the set bits among the first `k` of a sprite, eight to a row. -/
def maskBefore (k : Nat) (px : Fin 64) (py : Fin 32) : Prop :=
  ∃ r c, 8 * r + c < k ∧ c < 8 ∧ (m.read (a + r)).getLsbD (7 - c) = true ∧ lands mode (x0 + c) (y0 + r) px py

theorem not_maskBefore_zero (px : Fin 64) (py : Fin 32) : ¬maskBefore mode m a x0 y0 0 px py := by
  rintro ⟨r, c, hk, -⟩
  omega

/-- The next bit of row `r` adds its landing place where it is set. -/
theorem maskBefore_succ_iff {r c : Nat} (hc : c < 8) (px : Fin 64) (py : Fin 32) :
    maskBefore mode m a x0 y0 (8 * r + c + 1) px py ↔
      maskBefore mode m a x0 y0 (8 * r + c) px py ∨
        ((m.read (a + r)).getLsbD (7 - c) = true ∧ lands mode (x0 + c) (y0 + r) px py) := by
  constructor
  · rintro ⟨r', c', hk, hc', hbit, hland⟩
    by_cases hlast : 8 * r' + c' < 8 * r + c
    · exact .inl ⟨r', c', hlast, hc', hbit, hland⟩
    · obtain ⟨rfl, rfl⟩ : r' = r ∧ c' = c := by omega
      exact .inr ⟨hbit, hland⟩
  · rintro (⟨r', c', hk, hbefore⟩ | hnext)
    · exact ⟨r', c', by omega, hbefore⟩
    · exact ⟨r, c, by omega, hc, hnext⟩

/-- No earlier bit has the landing place of the next one. -/
theorem not_maskBefore_of_lands {r c : Nat} (hr : r < 32) (hc : c < 8) {px : Fin 64} {py : Fin 32}
    (hland : lands mode (x0 + c) (y0 + r) px py) : ¬maskBefore mode m a x0 y0 (8 * r + c) px py := by
  rintro ⟨r', c', hk, hc', -, hland'⟩
  have := lands_inj hr (by omega) (by omega) (by omega) hland hland'
  omega

variable {mode m a x0 y0} {fb : Framebuffer} {d : Drawing}

/-- The inner loop of R184. -/
theorem Drawing.Flips.drawRow {r c : Nat} (hr : r < 32) (hc : c ≤ 8) (hd : d.Flips fb (maskBefore mode m a x0 y0 (8 * r))) :
    Drawing.Flips (drawRow mode (m.read (a + r)) x0 (y0 + r) c d) fb (maskBefore mode m a x0 y0 (8 * r + c)) := by
  induction c with
  | zero => exact hd
  | succ c ih =>
    have hprev := ih (by omega)
    rw [Machine.drawRow]
    split
    · next hbit =>
      exact (hprev.drawPixel fun px py => not_maskBefore_of_lands mode m a x0 y0 hr hc).congr fun px py => by
        rw [← Nat.add_assoc, maskBefore_succ_iff mode m a x0 y0 hc, and_iff_right hbit]
    · next hbit =>
      exact hprev.congr fun px py => by
        rw [← Nat.add_assoc, maskBefore_succ_iff mode m a x0 y0 hc, or_iff_left fun h => hbit h.1]

/-- The outer loop of R184. -/
theorem drawRows_flips {n : Nat} (hn : n ≤ 32) :
    Drawing.Flips (drawRows mode m a x0 y0 n (fb, false)) fb (maskBefore mode m a x0 y0 (8 * n)) := by
  induction n with
  | zero => exact Drawing.flips_start fb (not_maskBefore_zero mode m a x0 y0)
  | succ n ih => exact (ih (by omega)).drawRow hn (Nat.le_refl 8)

end

theorem maskBefore_iff_inMask (mode : EdgeMode) (x y : Reg) (n : Nibble) (s : State) (px : Fin 64) (py : Fin 32) :
    maskBefore mode s.mem s.base (s.reg x).toNat (s.reg y).toNat (8 * n.toNat) px py ↔ inMask mode x y n s px py := by
  exact exists₂_congr fun r c =>
    ⟨fun ⟨hk, hc, hdrawn⟩ => ⟨by omega, hc, hdrawn⟩, fun ⟨hr, hc, hdrawn⟩ => ⟨by omega, hc, hdrawn⟩⟩

/-! ## The draw -/

/-- DRW flips exactly the pixels of its mask (R186(a)). -/
theorem spriteDrawing_flips (mode : EdgeMode) (x y : Reg) (n : Nibble) (s : State) :
    (spriteDrawing mode x y n s).Flips s.fb (inMask mode x y n s) := by
  have hn : n.toNat ≤ 32 := by have := n.isLt; omega
  exact (drawRows_flips hn).congr (maskBefore_iff_inMask mode x y n s)

section
variable {mode : EdgeMode} {x y : Reg} {n : Nibble} {s t : State}

theorem drawSprite_of_inRange (h : s.I.toNat + n.toNat ≤ 0x1000) :
    drawSprite mode x y n s = .next
      { s with
        fb := (spriteDrawing mode x y n s).1
        x := s.x.set 15 (flagByte (spriteDrawing mode x y n s).2)
        pc := s.pc + 2
        returned := .signal .displayChanged } := by
  rcases drawSprite_cases mode x y n s with ⟨-, hdraw⟩ | ⟨hout, -⟩
  · exact hdraw
  · omega

theorem drawSprite_of_outOfRange (h : s.I.toNat + n.toNat > 0x1000) :
    drawSprite mode x y n s = .next { s with returned := .signal (.memoryOutOfBounds .spriteRead) } := by
  rcases drawSprite_cases mode x y n s with ⟨hin, -⟩ | ⟨-, hraise⟩
  · omega
  · exact hraise

/-- The mask of a draw depends on memory, I and the coordinates alone. -/
theorem inMask_congr (hmem : t.mem = s.mem) (hI : t.I = s.I) (hx : t.reg x = s.reg x) (hy : t.reg y = s.reg y) (px : Fin 64)
    (py : Fin 32) : inMask mode x y n t px py ↔ inMask mode x y n s px py := by
  simp only [inMask, hmem, hI, hx, hy]

theorem not_inMask_of_no_rows (hn : n = 0) (px : Fin 64) (py : Fin 32) : ¬inMask mode x y n s px py := by
  rintro ⟨r, c, hr, -⟩
  subst hn
  exact Nat.not_lt_zero r hr

/-- In clip mode a sprite whose origin is right of the screen or below it lands nowhere (R183, D9). -/
theorem not_inMask_clip_of_offscreen (h : (s.reg x).toNat ≥ 64 ∨ (s.reg y).toNat ≥ 32) (px : Fin 64) (py : Fin 32) :
    ¬inMask .clip x y n s px py := by
  rintro ⟨r, c, -, -, -, hpx, hpy⟩
  omega

end

section
variable {d e : Drawing} {fb : Framebuffer} {M : Fin 64 → Fin 32 → Prop}

/-- The hit, told by the two framebuffers: some pixel went from set to unset (R184). -/
theorem Drawing.Flips.hit_iff_erased (hd : d.Flips fb M) :
    d.2 = true ↔ ∃ px py, fb.pixel px py = true ∧ d.1.pixel px py = false := by
  rw [hd.hit]
  refine exists₂_congr fun px py => ?_
  rw [and_comm]
  refine and_congr_right fun hset => ?_
  rw [← hd.pixel_ne, hset, ne_eq, Bool.not_eq_true]

/-- An empty mask draws nothing and hits nothing. -/
theorem Drawing.Flips.eq_of_empty (hd : d.Flips fb M) (hM : ∀ px py, ¬M px py) : d = (fb, false) :=
  Prod.ext (Framebuffer.ext_pixel fun px py => hd.pixel_eq_of_not_mem (hM px py))
    (Bool.eq_false_iff.mpr fun hhit => by
      obtain ⟨px, py, hmem, -⟩ := hd.hit.mp hhit
      exact hM px py hmem)

/-- Flipping the same mask twice restores the framebuffer (R186(b)). -/
theorem Drawing.Flips.restore (hd : d.Flips fb M) (he : e.Flips d.1 M) : e.1 = fb :=
  Framebuffer.ext_pixel fun px py => by
    by_cases hM : M px py
    · rw [he.pixel_eq_not_of_mem hM, hd.pixel_eq_not_of_mem hM, Bool.not_not]
    · rw [he.pixel_eq_of_not_mem hM, hd.pixel_eq_of_not_mem hM]

/-- The second flip of a mask hits the pixels that were unset before the first. -/
theorem Drawing.Flips.hit_again (hd : d.Flips fb M) (he : e.Flips d.1 M) :
    e.2 = true ↔ ∃ px py, M px py ∧ fb.pixel px py = false := by
  rw [he.hit]
  refine exists₂_congr fun px py => and_congr_right fun hM => ?_
  rw [hd.pixel_eq_not_of_mem hM, Bool.not_eq_true']

end

theorem flagByte_eq_one_iff (b : Bool) : flagByte b = 1 ↔ b = true := by cases b <;> decide

theorem flagByte_eq_one_or_zero (b : Bool) : flagByte b = 1 ∨ flagByte b = 0 := by cases b <;> decide

/-- Settles O30: the draw flips its mask, its hit is the flag, and the check comes first. -/
theorem drawIsXorWithMask : Obligations.DrawIsXorWithMask := by
  unfold Obligations.DrawIsXorWithMask
  refine fun x y n s => ⟨RoundTrip.drwVxVyN x y n _ rfl, rfl, fun mode => ⟨fun hin => ?_, drawSprite_of_outOfRange⟩⟩
  have hflips := spriteDrawing_flips mode x y n s
  exact ⟨_, _, drawSprite_of_inRange hin, hflips.pixel_ne, hflips.hit⟩

/-- Settles O31: the case of this machine's own edge mode, its hit told by the pixels that were erased. -/
theorem drawCompletes : Obligations.DrawCompletes := by
  unfold Obligations.DrawCompletes
  exact fun x y n s hin =>
    ⟨_, _, drawSprite_of_inRange hin, (spriteDrawing_flips drawEdgeMode x y n s).hit_iff_erased⟩

/-- Settles O32: the first draw leaves memory, I and the coordinates, so the second flips the same mask. -/
theorem drawTwiceRestores : Obligations.DrawTwiceRestores := by
  unfold Obligations.DrawTwiceRestores
  intro mode x y n s t u hx hy hin hfirst hsecond
  rw [drawSprite_of_inRange hin, Host.Outcome.next.injEq] at hfirst
  have hmem : t.mem = s.mem := by rw [← hfirst]
  have hI : t.I = s.I := by rw [← hfirst]
  have hreg {r : Reg} (hr : r ≠ 15) : t.reg r = s.reg r := by
    rw [← hfirst]; exact State.setReg_reg_ne s flagReg r _ hr
  have hfb : t.fb = (spriteDrawing mode x y n s).1 := by rw [← hfirst]
  rw [drawSprite_of_inRange (by rwa [hI]), Host.Outcome.next.injEq] at hsecond
  have hflag : u.reg 15 = flagByte (spriteDrawing mode x y n t).2 := by
    rw [← hsecond]; exact State.setReg_reg_self t flagReg _
  have hd := spriteDrawing_flips mode x y n s
  have he := (spriteDrawing_flips mode x y n t).congr (inMask_congr hmem hI (hreg hx) (hreg hy))
  rw [hfb] at he
  refine ⟨?_, ?_, ?_⟩
  · rw [← hsecond]; exact hd.restore he
  · rw [hflag]; exact flagByte_eq_one_or_zero _
  · rw [hflag, flagByte_eq_one_iff]; exact hd.hit_again he

/-- Settles O33: flipping an empty mask leaves the framebuffer and clears the hit. -/
theorem emptyMaskDrawsNothing : Obligations.EmptyMaskDrawsNothing := by
  unfold Obligations.EmptyMaskDrawsNothing
  intro mode x y n s hin
  refine ⟨fun hempty => ?_, not_inMask_of_no_rows, fun hclip hoff => ?_⟩
  · rw [drawSprite_of_inRange hin, (spriteDrawing_flips mode x y n s).eq_of_empty hempty]; rfl
  · subst hclip
    exact not_inMask_clip_of_offscreen hoff

end Sys2Proof.Machine
end

section
/-! PROOFS. The keypad skips and the timer writes (R200 to R206): the bit of `keys` as a number, and what each instruction leaves. -/

namespace Sys2Proof.Machine

open Sys2Proof.Spec Sys2Proof.Laws

theorem keyDown_iff_div_mod (s : State) (k : Fin 16) : keyDown s k = true ↔ s.keys.toNat / 2 ^ k.val % 2 = 1 := by
  rw [keyDown, ← BitVec.testBit_toNat, Nat.testBit_eq_decide_div_mod_eq, decide_eq_true_iff]

theorem not_keyDown_iff_div_mod (s : State) (k : Fin 16) : (!keyDown s k) = true ↔ s.keys.toNat / 2 ^ k.val % 2 = 0 := by
  rw [Bool.not_eq_true', ← Bool.not_eq_true, keyDown_iff_div_mod]
  exact Nat.mod_two_ne_one

/-- Settles O35: a register up to 15 is a key number as it stands, and the check raises above. -/
theorem keySkips : Obligations.KeySkips := by
  unfold Obligations.KeySkips
  intro x s
  refine ⟨RoundTrip.skpVx x _ rfl, RoundTrip.sknpVx x _ rfl, fun hkey => ⟨?_, ?_⟩,
    fun hbad => ⟨exec_of_error (if_pos hbad), exec_of_error (if_pos hbad)⟩⟩
  · rw [exec, execSkpVx, nibbleOperand_of_le hkey]
    exact skipIf_of_iff (keyDown_iff_div_mod s _) s
  · rw [exec, execSknpVx, nibbleOperand_of_le hkey]
    exact skipIf_of_iff (not_keyDown_iff_div_mod s _) s

/-- Settles O36: neither instruction has an operand check, and each writes its one timer. -/
theorem timerWrites : Obligations.TimerWrites := by
  unfold Obligations.TimerWrites
  exact fun x s => ⟨RoundTrip.ldDTVx x _ rfl, RoundTrip.ldSTVx x _ rfl, exec_of_plain rfl rfl, exec_of_plain rfl rfl⟩

end Sys2Proof.Machine
end

section
/-! PROOFS. The deferred-completion protocol (R210 to R225): what a suspension, an accepted supply and a misused call leave, the two
halves of a deferred instruction together, and the instruction a suspended phase stands on in every run. -/

namespace Sys2Proof.Machine

open Sys2Proof.Spec Sys2Proof.Laws

/-! ## The suspension -/

/-- Settles O37: each of the three instructions is a `suspend` that names its own phase and signal. -/
theorem deferredInstructionsSuspend : Obligations.DeferredInstructionsSuspend := by
  unfold Obligations.DeferredInstructionsSuspend
  intro x nn s
  exact ⟨RoundTrip.rndVxNN x nn _ rfl, RoundTrip.ldVxK x _ rfl, RoundTrip.ldVxDT x _ rfl, (suspend_next_iff _ _ _ _).mpr rfl,
    (suspend_next_iff _ _ _ _).mpr rfl, (suspend_next_iff _ _ _ _).mpr rfl⟩

/-- `i` is a deferred instruction: its `step` suspends in `kind` with signal `g`, and the register field of its word is `x` (R210). -/
structure Deferred (i : Instr) (kind : Phase) (g : Signal) (x : Reg) : Prop where
  exec_eq : exec i = suspend kind g
  decode_encode : decodeWord (encode i) = some i
  fieldX_encode : fieldX (encode i) = x
  suspends : kind ≠ .ready

theorem deferred_rndVxNN (x : Reg) (nn : Byte) : Deferred (.rndVxNN x nn) .suspRandom .needsRandom x :=
  ⟨rfl, RoundTrip.rndVxNN x nn _ rfl, fieldX_wordXI _ _ _, nofun⟩

theorem deferred_ldVxK (x : Reg) : Deferred (.ldVxK x) .suspKey .needsKey x :=
  ⟨rfl, RoundTrip.ldVxK x _ rfl, fieldX_wordXI _ _ _, nofun⟩

theorem deferred_ldVxDT (x : Reg) : Deferred (.ldVxDT x) .suspDelay .needsDelay x :=
  ⟨rfl, RoundTrip.ldVxDT x _ rfl, fieldX_wordXI _ _ _, nofun⟩

/-- The `step()` transaction on a deferred instruction writes only `phase` (R212 to R214). -/
theorem Deferred.engineStep_eq {i : Instr} {kind : Phase} {g : Signal} {x : Reg} {s : State} (hi : Deferred i kind g x)
    (hready : s.phase = .ready) (hfetch : s.fetch = some (encode i)) :
    engineStep machineParams s = .next { s with phase := kind, returned := .signal g } := by
  rw [engineStep_machine_of_fetch hready hfetch hi.decode_encode, hi.exec_eq, suspend_next_iff]

/-! ## The supplies -/

section
variable {kind : Phase} {v bound : Nat} {value : Word → Byte} {s : State}

/-- An accepted supply takes the register from the word at `pc` (R216). -/
theorem supply_of_accepted {w : Word} (hphase : s.phase = kind) (hv : v ≤ bound) (hfetch : s.fetch = some w) :
    supply kind (decide (v ≤ bound)) value s = .next
      { s with x := s.x.set (fieldX w).val (value w), pc := s.pc + 2, phase := .ready, returned := .nothing } := by
  rw [supply, if_pos ⟨hphase, decide_eq_true hv⟩, hfetch]; rfl

/-- A supply in another phase than its own, or of a value out of range, is rejected (R222). -/
theorem supply_of_misused (h : s.phase ≠ kind ∨ v > bound) :
    supply kind (decide (v ≤ bound)) value s = .next { s with returned := .rejected } := by
  have hmisused : ¬(s.phase = kind ∧ decide (v ≤ bound) = true) := by
    rw [decide_eq_true_iff, not_and_or, Nat.not_le]; exact h
  rw [supply, if_neg hmisused, reject_next_iff]

end

/-- A `step` call in a suspended phase is rejected (R222). -/
theorem engineStep_of_suspended (p : Params) {s : State} (h : s.phase ≠ .ready) :
    engineStep p s = .next { s with returned := .rejected } := by
  rw [engineStep, if_pos h, reject_next_iff]

/-- Settles O39: a step makes the pending call, and the phase or the range check of that call fails. -/
theorem misuseIsRejected : Obligations.MisuseIsRejected := by
  unfold Obligations.MisuseIsRejected
  rintro s v rest (⟨hhost, hbad⟩ | ⟨hhost, hbad⟩ | ⟨hhost, hbad⟩ | ⟨hhost, hbad⟩) <;> rw [step_of_call hhost]
  · exact engineStep_of_suspended machineParams hbad
  · exact supply_of_misused hbad
  · exact supply_of_misused hbad
  · exact supply_of_misused hbad

/-! The fields of a word as numbers (R71), and the word at an address (R51). -/

theorem fieldX_val (w : Word) : (fieldX w).val = w.toNat / 256 % 16 := by
  simp [fieldX, Nat.shiftRight_eq_div_pow]

theorem fieldNN_eq_ofNat (w : Word) : fieldNN w = BitVec.ofNat 8 (w.toNat % 256) := by
  apply BitVec.eq_of_toNat_eq
  simp [fieldNN]

theorem toNat_readWord (m : Memory) (a : Nat) : (m.readWord a).toNat = (m.read a).toNat * 256 + (m.read (a + 1)).toNat := by
  rw [Memory.readWord, wordOfBytes, BitVec.toNat_append, ← Nat.shiftLeft_add_eq_or_of_lt (m.read (a + 1)).isLt,
    Nat.shiftLeft_eq]

/-- Settles O38: the word given by its two bytes is the word fetched, and the supplies take its fields. -/
theorem suppliesCompleteTheInstruction : Obligations.SuppliesCompleteTheInstruction := by
  unfold Obligations.SuppliesCompleteTheInstruction
  intro s w x v rest hpc hw hx
  have hfetch : s.fetch = some w :=
    (s.fetch_eq_some_iff w).mpr ⟨hpc, BitVec.eq_of_toNat_eq ((toNat_readWord s.mem s.pc.toNat).trans hw.symm)⟩
  obtain rfl : fieldX w = x := Fin.ext ((fieldX_val w).trans hx.symm)
  rw [← fieldNN_eq_ofNat]
  refine ⟨?_, ?_, ?_⟩ <;> intro hhost hphase hv <;>
    exact (step_of_call hhost).trans (supply_of_accepted hphase hv hfetch)

/-! ## Suspension and supply together -/

section
variable {i : Instr} {kind : Phase} {g : Signal} {x : Reg} {v bound : Nat} {value : Word → Byte} {b : Byte} {s : State}

/-- The supply that answers a suspension leaves the state before it with the destination written and `pc` advanced. -/
theorem Deferred.supply_eq (hi : Deferred i kind g x) (hready : s.phase = .ready) (hfetch : s.fetch = some (encode i))
    (hv : v ≤ bound) (hvalue : value (encode i) = b) :
    supply kind (decide (v ≤ bound)) value { s with phase := kind, returned := .signal g } = .next
      { s with x := s.x.set x.val b, pc := s.pc + 2, returned := .nothing } := by
  subst hvalue
  obtain rfl := hi.fieldX_encode
  rw [hready]
  exact supply_of_accepted (s := { s with phase := kind, returned := .signal g }) rfl hv hfetch

/-- A host that calls `step` and then the matching supply completes the instruction (R225). -/
theorem Deferred.suspend_then_supply {c : HostCall} {rest : List HostCall} (hi : Deferred i kind g x)
    (hc : transact machineParams c = supply kind (decide (v ≤ bound)) value) (hready : s.phase = .ready)
    (hhost : s.host = .step :: c :: rest) (hfetch : s.fetch = some (encode i)) (hv : v ≤ bound)
    (hvalue : value (encode i) = b) : ∃ t u,
      step s = .next t ∧ t.pc = s.pc ∧ t.x = s.x ∧ t.returned = .signal g ∧ step t = .next u ∧
      u = { s with x := s.x.set x.val b, pc := s.pc + 2, host := rest, returned := .nothing } := by
  refine ⟨{ s with phase := kind, host := c :: rest, returned := .signal g }, _, ?_, rfl, rfl, rfl, ?_, rfl⟩
  · exact (step_of_call hhost).trans (hi.engineStep_eq (s := { s with host := c :: rest }) hready hfetch)
  · rw [step_of_call rfl, hc]
    exact hi.supply_eq (s := { s with host := rest }) hready hfetch hv hvalue

/-- With no call pending, the obedient host's two calls complete the instruction (R210). -/
theorem Deferred.obedient_host_completes (hi : Deferred i kind g x) (hready : s.phase = .ready) (hidle : s.host = [])
    (hc : transact machineParams (obedientCall { s with phase := kind }) = supply kind (decide (v ≤ bound)) value)
    (hfetch : s.fetch = some (encode i)) (hv : v ≤ bound) (hvalue : value (encode i) = b) : ∃ t,
      step s = .next t ∧ step t = .next
        { s with x := s.x.set x.val b, pc := s.pc + 2, draws := s.draws + 1, returned := .nothing } := by
  refine ⟨{ s with phase := kind, returned := .signal g }, ?_, ?_⟩
  · exact (step_of_ready hidle hready).trans (hi.engineStep_eq hready hfetch)
  · refine (step_of_suspended (s := { s with phase := kind, returned := .signal g }) hidle hi.suspends).trans ?_
    exact (congrFun hc _).trans (hi.supply_eq (s := { s with draws := s.draws + 1 }) hready hfetch hv hvalue)

end

theorem ofNat_toNat_byte (v : Byte) : BitVec.ofNat 8 v.toNat = v := by
  rw [BitVec.ofNat_toNat, BitVec.setWidth_eq]

/-- Settles O40: the two calls on each deferred instruction, and the misuse of a supply in Ready. -/
theorem suspendThenSupply : Obligations.SuspendThenSupply := by
  unfold Obligations.SuspendThenSupply
  intro s x nn v rest hready
  refine ⟨fun hhost hfetch hv => ?_, fun hhost hfetch hv => ?_, fun hhost hfetch hv => ?_, fun hsupply => ?_⟩
  · refine (deferred_rndVxNN x nn).suspend_then_supply rfl hready hhost hfetch hv ?_
    exact congrArg (BitVec.ofNat 8 v &&& ·) (fieldNN_wordXI _ _ _)
  · exact (deferred_ldVxK x).suspend_then_supply rfl hready hhost hfetch hv rfl
  · exact (deferred_ldVxDT x).suspend_then_supply rfl hready hhost hfetch hv rfl
  · have hphase {p : Phase} (hp : p ≠ .ready) : s.phase ≠ p := fun h => hp (h.symm.trans hready)
    apply misuseIsRejected s v rest
    rcases hsupply with hhost | hhost | hhost
    · exact .inr (.inl ⟨hhost, .inl (hphase nofun)⟩)
    · exact .inr (.inr (.inl ⟨hhost, .inl (hphase nofun)⟩))
    · exact .inr (.inr (.inr ⟨hhost, .inl (hphase nofun)⟩))

/-- Settles O41: a free value of the obedient host is in the range its supply accepts, whatever it is. -/
theorem obedientHostCompletes : Obligations.ObedientHostCompletes := by
  unfold Obligations.ObedientHostCompletes
  intro s x nn hready hidle
  refine ⟨fun hfetch => ?_, fun hfetch => ?_, fun hfetch => ?_⟩
  · have hv : (Config.suppliedByte s.draws).toNat ≤ 255 := Nat.le_of_lt_succ (Config.suppliedByte s.draws).isLt
    refine (deferred_rndVxNN x nn).obedient_host_completes hready hidle rfl hfetch hv ?_
    exact congrArg₂ (· &&& ·) (ofNat_toNat_byte _) (fieldNN_wordXI _ _ _)
  · have hv : (Config.suppliedKey s.draws).val ≤ 15 := Nat.le_of_lt_succ (Config.suppliedKey s.draws).isLt
    obtain ⟨t, hsuspend, hsupply⟩ := (deferred_ldVxK x).obedient_host_completes hready hidle rfl hfetch hv rfl
    exact ⟨t, _, hsuspend, (BitVec.toNat_ofNat _ _).trans_le ((Nat.mod_le _ _).trans hv), hsupply⟩
  · have hv : (Config.suppliedTicks s.draws).toNat ≤ 255 := Nat.le_of_lt_succ (Config.suppliedTicks s.draws).isLt
    exact (deferred_ldVxDT x).obedient_host_completes hready hidle rfl hfetch hv (ofNat_toNat_byte _)

/-! ## Where a run suspends -/

/-- A run of `n + 1` steps that ends in a state is one step and a run of `n` steps. -/
theorem exists_step_of_run_succ {M : Host.Core} {n : Nat} {s t : M.State} (h : M.run (n + 1) s = .next t) :
    ∃ u, M.step s = .next u ∧ M.run n u = .next t := by
  rw [Host.Core.run] at h
  split at h
  case h_1 u hstep => exact ⟨u, hstep, h⟩
  case h_2 | h_3 => cases h

/-- A run keeps the invariant, since every step does. -/
theorem run_inv (n : Nat) {s t : State} (hs : s.Inv) (hrun : Host.Core.run core n s = .next t) : t.Inv := by
  induction n generalizing s with
  | zero => cases hrun; exact hs
  | succ n ih =>
    obtain ⟨u, hstep, hrest⟩ := exists_step_of_run_succ hrun
    exact ih (stepKeepsInvariant s u hs hstep) hrest

/-! The words that match the rows of RND, LD Vx,K and LD Vx,DT decode to them (R74). -/

theorem decodeWord_of_rnd_mask {w : Word} (h : w &&& 0xF000 = 0xC000) :
    decodeWord w = some (.rndVxNN (fieldX w) (fieldNN w)) := by
  rw [and_F000] at h
  have hop : fieldOP w = 0xC#4 := (fieldOP_wordXI _ _ _).symm.trans (congrArg fieldOP h)
  simp [decodeWord, decodeWordWith, hop]

theorem fields_of_and_F0FF {w : Word} {op : Nibble} {nn : Byte} (h : w &&& 0xF0FF = wordXI op 0 nn) :
    fieldOP w = op ∧ fieldNN w = nn := by
  rw [and_F0FF] at h
  exact ⟨by simpa using congrArg fieldOP h, by simpa using congrArg fieldNN h⟩

theorem decodeWord_of_ldVxK_mask {w : Word} (h : w &&& 0xF0FF = 0xF00A) : decodeWord w = some (.ldVxK (fieldX w)) := by
  obtain ⟨hop, hnn⟩ := fields_of_and_F0FF (op := 0xF) (nn := 0x0A) h
  simp [decodeWord, decodeWordWith, decodeFamilyF, hop, hnn]

theorem decodeWord_of_ldVxDT_mask {w : Word} (h : w &&& 0xF0FF = 0xF007) : decodeWord w = some (.ldVxDT (fieldX w)) := by
  obtain ⟨hop, hnn⟩ := fields_of_and_F0FF (op := 0xF) (nn := 0x07) h
  simp [decodeWord, decodeWordWith, decodeFamilyF, hop, hnn]

/-- In a suspended phase the check of R223 is of a fetched word. -/
theorem State.exists_fetch_of_suspendedOk {s : State} (hok : s.suspendedOk = true) (hphase : s.phase ≠ .ready) :
    ∃ w, s.fetch = some w := by
  cases hfetch : s.fetch with
  | some w => exact ⟨w, rfl⟩
  | none =>
    rw [State.suspendedOk, hfetch] at hok
    cases hp : s.phase with
    | ready => exact absurd hp hphase
    | suspRandom | suspKey | suspDelay => rw [hp] at hok; cases hok

theorem State.suspendedOk_iff_of_fetch {s : State} {w : Word} (hfetch : s.fetch = some w) :
    s.suspendedOk = true ↔ (s.phase = .suspRandom → w &&& 0xF000 = 0xC000) ∧ (s.phase = .suspKey → w &&& 0xF0FF = 0xF00A) ∧
      (s.phase = .suspDelay → w &&& 0xF0FF = 0xF007) := by
  rw [State.suspendedOk, hfetch]
  cases s.phase <;> simp

/-- Settles O47: the invariant holds at reset whatever calls are pending, a run keeps it, and a word that matches the row of a deferred
instruction decodes to it. -/
theorem suspendedPhaseStandsOnItsInstruction : Obligations.SuspendedPhaseStandsOnItsInstruction := by
  unfold Obligations.SuspendedPhaseStandsOnItsInstruction
  intro calls k n s hrun hphase
  obtain ⟨-, hok⟩ : s.Inv := run_inv n (s := { State.reset with host := calls, draws := k }) invariantAtReset hrun
  obtain ⟨w, hfetch⟩ := State.exists_fetch_of_suspendedOk hok hphase
  obtain ⟨hrnd, hkey, hdelay⟩ := (State.suspendedOk_iff_of_fetch hfetch).mp hok
  obtain ⟨hpc, rfl⟩ := (s.fetch_eq_some_iff w).mp hfetch
  exact ⟨hpc, fun h => ⟨_, _, decodeWord_of_rnd_mask (hrnd h)⟩, fun h => ⟨_, decodeWord_of_ldVxK_mask (hkey h)⟩,
    fun h => ⟨_, decodeWord_of_ldVxDT_mask (hdelay h)⟩⟩

end Sys2Proof.Machine
end

section
/-! PROOFS. The error signals (R230 to R237): a step of a sound state always goes on, an error signal changes nothing and repeats, and
which check raises it; then the host's accessors (R251, R252). -/

namespace Sys2Proof.Machine

open Sys2Proof.Spec

/-! ## Every step goes on -/

/-- A step is one transaction, of the state with only the host's own fields touched: the queue, and the count of supplied values. -/
theorem exists_step_eq_transact (s : State) :
    ∃ c rest k, step s = transact machineParams c { s with host := rest, draws := k } := by
  cases hhost : s.host with
  | cons c rest => exact ⟨c, rest, s.draws, step_of_call hhost⟩
  | nil =>
    by_cases hready : s.phase = .ready
    · exact ⟨.step, s.host, s.draws, step_of_ready hhost hready⟩
    · exact ⟨obedientCall s, s.host, s.draws + 1, step_of_suspended hhost hready⟩

/-- The `step()` transaction goes on in every state. -/
theorem exists_engineStep_eq_next (s : State) : ∃ t, engineStep machineParams s = .next t := by
  rcases engineStep_machine_cases s with ⟨-, he⟩ | ⟨-, -, he⟩ | ⟨w, -, -, -, he⟩ | ⟨w, i, -, -, -, he⟩ <;> rw [he]
  · exact ⟨_, (reject_next_iff _ _).mpr rfl⟩
  · exact ⟨_, (raise_next_iff _ _ _).mpr rfl⟩
  · exact ⟨_, (raise_next_iff _ _ _).mpr rfl⟩
  · exact ⟨_, exec_eq_next i s⟩

/-- A supply of a sound state never faults: a suspension stands on a word that can be fetched (R216, R223). -/
theorem exists_supply_eq_next {kind : Phase} {s : State} (inRange : Bool) (value : Word → Byte) (hs : s.Inv)
    (hkind : kind ≠ .ready) : ∃ t, supply kind inRange value s = .next t := by
  rcases supply_cases kind inRange value s with ⟨w, -, -, -, h⟩ | ⟨rfl, -, hnone, -⟩ | ⟨-, h⟩
  · exact ⟨_, h⟩
  · obtain ⟨-, hok⟩ := hs
    obtain ⟨w, hsome⟩ := State.exists_fetch_of_suspendedOk hok hkind
    cases hnone.symm.trans hsome
  · exact ⟨_, h.trans ((reject_next_iff _ _).mpr rfl)⟩

theorem exists_transact_eq_next {s : State} (c : HostCall) (hs : s.Inv) : ∃ t, transact machineParams c s = .next t := by
  cases c with
  | step => exact exists_engineStep_eq_next s
  | supplyRandom | supplyKey | supplyDelay => exact exists_supply_eq_next _ _ hs nofun
  | initializeWith | setKeys | readFramebuffer | readKeys => exact ⟨_, rfl⟩

/-- Settles O48: an instruction answers `afterExec`, and every transaction of a sound state goes on. -/
theorem everyStepGoesOn : Obligations.EveryStepGoesOn := by
  unfold Obligations.EveryStepGoesOn
  refine ⟨fun i s => ⟨_, exec_eq_next i s⟩, fun s hs => ?_⟩
  obtain ⟨c, rest, k, hstep⟩ := exists_step_eq_transact s
  rw [hstep]
  exact exists_transact_eq_next c hs

/-! ## An error changes nothing and repeats -/

theorem goodSignal_isError_eq_false (i : Instr) : (goodSignal i).isError = false := by cases i <;> rfl

/-- An instruction that returns an error signal changes nothing but the record of it (R236). -/
theorem exec_frame_of_isError {i : Instr} {s t : State} (h : exec i s = .next t) (herror : t.returned.isError = true) :
    t = { s with returned := t.returned } := by
  rcases exec_next_cases h with ⟨g, -, rfl⟩ | ⟨-, rfl⟩
  · rfl
  · cases (goodSignal_isError_eq_false i).symm.trans herror

theorem engineStep_frame_of_isError {s t : State} (h : engineStep machineParams s = .next t) (herror : t.returned.isError = true) :
    t = { s with returned := t.returned } := by
  rcases engineStep_machine_cases s with ⟨-, he⟩ | ⟨-, -, he⟩ | ⟨w, -, -, -, he⟩ | ⟨w, i, -, -, -, he⟩ <;> rw [he] at h
  · rw [reject_next_iff] at h; rw [h]
  · rw [raise_next_iff] at h; rw [h]
  · rw [raise_next_iff] at h; rw [h]
  · exact exec_frame_of_isError h herror

/-- A supply returns nothing or Rejected, never an error signal (R217 to R222). -/
theorem supply_isError_eq_false {kind : Phase} {inRange : Bool} {value : Word → Byte} {s t : State}
    (h : supply kind inRange value s = .next t) : t.returned.isError = false := by
  rcases supply_cases kind inRange value s with ⟨w, -, -, -, hsupply⟩ | ⟨-, -, -, hsupply⟩ | ⟨-, hsupply⟩ <;> rw [hsupply] at h
  · cases h; rfl
  · cases h
  · rw [reject_next_iff] at h; rw [h]; rfl

/-- With no call pending, only a step in Ready returns an error signal: in a suspended phase the step is a supply. -/
theorem ready_of_step_isError {s t : State} (hidle : s.host = []) (h : step s = .next t) (herror : t.returned.isError = true) :
    s.phase = .ready := by
  by_contra hphase
  rw [step_of_suspended hidle hphase] at h
  have hsafe : t.returned.isError = false := by
    cases hkind : s.phase with
    | ready => exact absurd hkind hphase
    | suspRandom | suspKey | suspDelay => rw [obedientCall, hkind] at h; exact supply_isError_eq_false h
  cases hsafe.symm.trans herror

/-- No instruction reads what the last transaction returned, and each overwrites it (log entry 2). -/
theorem execWith_returned (p : Params) (i : Instr) (s : State) (r : Returned) :
    execWith p i { s with returned := r } = execWith p i s := by
  cases i <;> rfl

/-- A fetch outside memory raises FetchOutOfRange (R100). -/
theorem engineStep_of_unfetchable (p : Params) {s : State} (hready : s.phase = .ready) (hfetch : s.fetch = none) :
    engineStep p s = raise .fetchOutOfRange s := by
  simp only [engineStep, hready, hfetch, ne_eq, not_true_eq_false, if_false]

/-- The `step()` transaction does not read what the last transaction returned, and overwrites it (log entry 2). -/
theorem engineStep_returned (p : Params) (s : State) (r : Returned) :
    engineStep p { s with returned := r } = engineStep p s := by
  have hfetch : { s with returned := r }.fetch = s.fetch := State.fetch_congr rfl rfl
  rcases engineStep_cases p s with ⟨hp, he⟩ | ⟨hp, hf, he⟩ | ⟨w, hp, hf, hd, he⟩ | ⟨w, i, hp, hf, hd, he⟩ <;> rw [he]
  · exact engineStep_of_suspended p hp
  · exact engineStep_of_unfetchable p hp (hfetch.trans hf)
  · exact engineStep_of_undecodable p hp (hfetch.trans hf) hd
  · exact (engineStep_of_fetch p hp (hfetch.trans hf) hd).trans (execWith_returned p i s r)

/-- Settles O49: the state after the error is the same but for `returned`, which the step does not read. -/
theorem errorChangesNothingAndRepeats : Obligations.ErrorChangesNothingAndRepeats := by
  unfold Obligations.ErrorChangesNothingAndRepeats
  intro s t hidle h herror
  have hready := ready_of_step_isError hidle h herror
  rw [step_of_ready hidle hready] at h
  have hframe := engineStep_frame_of_isError h herror
  have hrepeat : step { s with returned := t.returned } = .next t :=
    (step_of_ready (s := { s with returned := t.returned }) hidle hready).trans ((engineStep_returned machineParams s t.returned).trans h)
  exact ⟨hframe, by rwa [← hframe] at hrepeat⟩

/-! ## The causes -/

theorem raise_returns_iff (g g' : Signal) (s : State) : (∃ t, raise g s = .next t ∧ t.returned = .signal g') ↔ g = g' := by
  simp

/-- An instruction returns an error signal exactly where its operand check gives it (R231). -/
theorem exec_returns_iff {i : Instr} {s : State} {g : Signal} (hg : g.isError = true) :
    (∃ t, exec i s = .next t ∧ t.returned = .signal g) ↔ operandError i s = some g := by
  constructor
  · rintro ⟨t, h, hreturned⟩
    rcases exec_next_cases h with ⟨g', herr, rfl⟩ | ⟨-, rfl⟩
    · cases hreturned; exact herr
    · cases hreturned; cases (goodSignal_isError_eq_false i).symm.trans hg
  · exact fun herr => ⟨_, exec_of_error herr, rfl⟩

/-- No operand check gives one of the two signals that are found before execution (R231). -/
theorem operandError_ne {g : Signal} (hg : g = .fetchOutOfRange ∨ g = .invalidInstruction) (i : Instr) (s : State) :
    operandError i s ≠ some g := by
  rcases hg with rfl | rfl <;> cases i <;> simp [operandError]

theorem exec_not_returns {g : Signal} (hg : g = .fetchOutOfRange ∨ g = .invalidInstruction) (i : Instr) (s : State) :
    ¬∃ t, exec i s = .next t ∧ t.returned = .signal g :=
  mt (exec_returns_iff (by rcases hg with rfl | rfl <;> rfl)).mp (operandError_ne hg i s)

/-- In Ready, FetchOutOfRange comes from the fetch and nothing else. -/
theorem engineStep_returns_fetchOutOfRange_iff {s : State} (hready : s.phase = .ready) :
    (∃ t, engineStep machineParams s = .next t ∧ t.returned = .signal .fetchOutOfRange) ↔ s.fetch = none := by
  rcases engineStep_machine_cases s with ⟨hp, -⟩ | ⟨-, hf, he⟩ | ⟨w, -, hf, -, he⟩ | ⟨w, i, -, hf, -, he⟩
  · exact absurd hready hp
  · rw [he, raise_returns_iff, hf]; simp
  · rw [he, raise_returns_iff, hf]; simp
  · rw [he, hf]; exact iff_of_false (exec_not_returns (.inl rfl) i s) nofun

/-- In Ready, InvalidInstruction comes from the decode of the fetched word and nothing else. -/
theorem engineStep_returns_invalidInstruction_iff {s : State} (hready : s.phase = .ready) :
    (∃ t, engineStep machineParams s = .next t ∧ t.returned = .signal .invalidInstruction) ↔
      ∃ w, s.fetch = some w ∧ decodeWord w = none := by
  rcases engineStep_machine_cases s with ⟨hp, -⟩ | ⟨-, hf, he⟩ | ⟨w, -, hf, hd, he⟩ | ⟨w, i, -, hf, hd, he⟩
  · exact absurd hready hp
  · rw [he, raise_returns_iff, hf]; simp
  · rw [he, raise_returns_iff, hf]; simp [hd]
  · rw [he, hf]; exact iff_of_false (exec_not_returns (.inr rfl) i s) (by simp [hd])

/-- A word is no instruction exactly where it matches no row of the opcode map (R76). -/
theorem decodeWord_eq_none_iff (w : Word) : decodeWord w = none ↔ ∀ r ∈ rows, matchesRow w r = false := by
  have hrow : (decodeWord w).map row = rows.find? (matchesRow w) := row_decodeWordWith w
  rw [← Option.map_eq_none_iff, hrow, List.find?_eq_none]
  simp only [Bool.not_eq_true]

/-- Settles O50: an instruction raises by its operand check alone, and a step in Ready raises by its fetch or its decode before that. -/
theorem errorCauses : Obligations.ErrorCauses := by
  unfold Obligations.ErrorCauses
  refine ⟨fun i s g => exec_returns_iff, fun s hidle hready => ?_⟩
  rw [step_of_ready hidle hready]
  constructor
  · exact (engineStep_returns_fetchOutOfRange_iff hready).trans s.fetch_eq_none_iff
  · simp only [engineStep_returns_invalidInstruction_iff hready, State.fetch_eq_some_iff, decodeWord_eq_none_iff, and_assoc,
      exists_and_left, exists_eq_left']

/-! ## The checks in their order, and the accessors -/

/-- Settles O6: the pending call is taken, and the first check that fails ends the `step()` transaction. -/
theorem stepChecksBeforeExecution : Obligations.StepChecksBeforeExecution := by
  unfold Obligations.StepChecksBeforeExecution
  intro s rest hhost
  have hstep : step s = engineStep machineParams { s with host := rest } := stepWith_of_step_call machineParams hhost
  have hfetch : { s with host := rest }.fetch = s.fetch := State.fetch_congr rfl rfl
  rw [hstep]
  refine ⟨fun hphase => engineStep_of_suspended machineParams hphase, fun hready hpc => ?_, fun hready hpc hdecode => ?_⟩
  · exact engineStep_of_unfetchable machineParams hready (hfetch.trans (s.fetch_eq_none_iff.mpr hpc))
  · have hsome : s.fetch = some (s.mem.readWord s.pc.toNat) := (s.fetch_eq_some_iff _).mpr ⟨hpc, rfl⟩
    exact engineStep_of_undecodable machineParams hready (hfetch.trans hsome) hdecode

/-- Settles O42: each of the three calls is its transaction, whatever the phase. -/
theorem hostAccessors : Obligations.HostAccessors := by
  unfold Obligations.HostAccessors
  exact fun s mask rest => ⟨step_of_call, step_of_call, step_of_call⟩

end Sys2Proof.Machine
end

section
/-! PROOFS. Encoding and decoding are inverse (R70 to R76): an instruction comes back from its word and from its bytes, and a word that
decodes is the word of the instruction it decodes to, which is well-formed. -/

namespace Sys2Proof.Machine

open Sys2Proof.Spec Sys2Proof.Laws

/-- Settles O1: each word has the fields of its row of R74, or of none. -/
theorem sampleWordsDecode : Obligations.SampleWordsDecode := by
  unfold Obligations.SampleWordsDecode
  decide

/-- The round trip of every row of R74 (R75). -/
theorem roundTrip : ∀ i : Instr, RoundTrip.Statement i
  | .cls => RoundTrip.cls
  | .ret => RoundTrip.ret
  | .jpNNN nnn => RoundTrip.jpNNN nnn
  | .callNNN nnn => RoundTrip.callNNN nnn
  | .seVxNN x nn => RoundTrip.seVxNN x nn
  | .sneVxNN x nn => RoundTrip.sneVxNN x nn
  | .seVxVy x y => RoundTrip.seVxVy x y
  | .ldVxNN x nn => RoundTrip.ldVxNN x nn
  | .addVxNN x nn => RoundTrip.addVxNN x nn
  | .ldVxVy x y => RoundTrip.ldVxVy x y
  | .orVxVy x y => RoundTrip.orVxVy x y
  | .andVxVy x y => RoundTrip.andVxVy x y
  | .xorVxVy x y => RoundTrip.xorVxVy x y
  | .addVxVy x y => RoundTrip.addVxVy x y
  | .subVxVy x y => RoundTrip.subVxVy x y
  | .shrVxVy x y => RoundTrip.shrVxVy x y
  | .subnVxVy x y => RoundTrip.subnVxVy x y
  | .shlVxVy x y => RoundTrip.shlVxVy x y
  | .sneVxVy x y => RoundTrip.sneVxVy x y
  | .ldINNN nnn => RoundTrip.ldINNN nnn
  | .jpV0NNN nnn => RoundTrip.jpV0NNN nnn
  | .rndVxNN x nn => RoundTrip.rndVxNN x nn
  | .drwVxVyN x y n => RoundTrip.drwVxVyN x y n
  | .skpVx x => RoundTrip.skpVx x
  | .sknpVx x => RoundTrip.sknpVx x
  | .ldVxDT x => RoundTrip.ldVxDT x
  | .ldVxK x => RoundTrip.ldVxK x
  | .ldDTVx x => RoundTrip.ldDTVx x
  | .ldSTVx x => RoundTrip.ldSTVx x
  | .addIVx x => RoundTrip.addIVx x
  | .ldFVx x => RoundTrip.ldFVx x
  | .bcdVx x => RoundTrip.bcdVx x
  | .ldMemVx x => RoundTrip.ldMemVx x
  | .ldVxMem x => RoundTrip.ldVxMem x

/-- The decoder of bytes reads a word from the first two and leaves the rest (R70). -/
theorem decode_of_decodeWord {hi lo : Byte} {i : Instr} (rest : List Byte) (h : decodeWord (wordOfBytes hi lo) = some i) :
    decode (hi :: lo :: rest) = .ok (i, rest) := by
  rw [decode, h]

/-- Settles O2: the round trip of every row, and the word of the two bytes of an encoding is the encoding. -/
theorem decodeOfEncodedInstruction : Obligations.DecodeOfEncodedInstruction := by
  unfold Obligations.DecodeOfEncodedInstruction
  refine ⟨fun admits i hwf => roundTrip i admits hwf, fun i rest hwf => decode_of_decodeWord rest ?_⟩
  rw [wordOfBytes_high_low]
  exact roundTrip i admit8XY0 hwf

/-- What decodes is well-formed: the one instruction with a condition, 8XY0, is struck from the map where it is not admitted (R76). -/
theorem wellFormedWith_of_decodeWordWith {admits : Bool} {w : Word} {i : Instr} (h : decodeWordWith admits w = some i) :
    i.wellFormedWith admits = true := by
  cases i
  case ldVxVy x y =>
    cases admits
    case true => rfl
    case false =>
      obtain ⟨-, hstruck, -⟩ := registerMove x y State.reset
      have hw : wordXY 0x8 x y 0x0 = w := encode_of_decodeWordWith h
      rw [hw, h] at hstruck
      cases hstruck
  all_goals rfl

/-- Settles O3: the word is put together again from the fields the decoder compares and takes. -/
theorem encodeOfDecodedWord : Obligations.EncodeOfDecodedWord := by
  unfold Obligations.EncodeOfDecodedWord
  exact fun admits w i h => ⟨encode_of_decodeWordWith h, wellFormedWith_of_decodeWordWith h⟩

/-! ## A word placed for the next step -/

theorem decodeWord_of_decodeTableWord {nbits w : Nat} {i : Instr} (h : decodeTableWord nbits w = some i) :
    decodeWord (tableWord nbits w) = some i := by
  rw [decodeTableWord] at h
  split at h
  · next j rest hdecode =>
    cases h
    rw [← wordOfBytes_high_low (tableWord nbits w)]
    exact decodeWord_of_decode hdecode
  · cases h

/-- A word stored inside memory is the word read there (R51). -/
theorem Memory.readWord_writeWord {m : Memory} {a : Nat} (w : Word) (hm : m.wf = true) (ha : a < 0x1000) :
    (m.writeWord a w).readWord a = w := by
  have hread := Memory.read_write (Memory.wf_write (highByte w) hm ha) (a + 1) (lowByte w)
  have hhi : (m.writeWord a w).read a = highByte w := by
    rw [Memory.writeWord, hread, if_neg (by omega), Memory.read_write hm, if_pos rfl]
  have hlo : (m.writeWord a w).read (a + 1) = lowByte w := by
    rw [Memory.writeWord, hread, if_pos rfl]
  rw [Memory.readWord, hhi, hlo, wordOfBytes_high_low]

/-- A placed word stands where the next step fetches (log entry 22). -/
theorem fetch_placeWord {s : State} (w : Word) (hmem : s.mem.wf = true) : (placeWord w s).fetch = some w := by
  have hpc : (placeWord w s).pc.toNat ≤ 0xFFE := by
    rw [placeWord]
    dsimp only
    split
    · next hfits => exact hfits
    · decide
  exact (State.fetch_eq_some_iff _ _).mpr ⟨hpc, Memory.readWord_writeWord w hmem (Nat.lt_of_le_of_lt hpc (by decide))⟩

/-- Settles O7: with a word placed, the engine is Ready, no call is pending, and the fetch gives that word. -/
theorem placedWordIsRun : Obligations.PlacedWordIsRun := by
  unfold Obligations.PlacedWordIsRun
  intro s w i hmem hdecode
  exact (step_of_ready rfl rfl).trans
    (engineStep_machine_of_fetch rfl (fetch_placeWord _ hmem) (decodeWord_of_decodeTableWord hdecode))

end Sys2Proof.Machine
end

section
/-! PROOFS. A sprite wholly on the screen is drawn alike in both edge modes (R183). -/

namespace Sys2Proof.Machine

open Sys2Proof.Spec

/-- A drawing is known by its start and its mask. -/
theorem Drawing.Flips.unique {d e : Drawing} {fb : Framebuffer} {M : Fin 64 → Fin 32 → Prop} (hd : d.Flips fb M)
    (he : e.Flips fb M) : d = e := by
  refine Prod.ext (Framebuffer.ext_pixel fun px py => ?_) (Bool.eq_iff_iff.mpr (hd.hit.trans he.hit.symm))
  by_cases hM : M px py
  · rw [hd.pixel_eq_not_of_mem hM, he.pixel_eq_not_of_mem hM]
  · rw [hd.pixel_eq_of_not_mem hM, he.pixel_eq_of_not_mem hM]

/-- A pixel aimed at the screen lands there in both modes (R183). -/
theorem lands_clip_iff_wrap {tx ty : Nat} (hx : tx < 64) (hy : ty < 32) (px : Fin 64) (py : Fin 32) :
    lands .clip tx ty px py ↔ lands .wrap tx ty px py := by
  rw [lands, lands, Nat.mod_eq_of_lt hx, Nat.mod_eq_of_lt hy]

theorem inMask_clip_iff_wrap {x y : Reg} {n : Nibble} {s : State} (hx : (s.reg x).toNat ≤ 56)
    (hy : (s.reg y).toNat + n.toNat ≤ 32) (px : Fin 64) (py : Fin 32) :
    inMask .clip x y n s px py ↔ inMask .wrap x y n s px py :=
  exists₂_congr fun _ _ => and_congr_right fun _ => and_congr_right fun _ => and_congr_right fun _ =>
    lands_clip_iff_wrap (by omega) (by omega) px py

/-- Settles O34: the two modes flip one mask, and a draw depends on its mode only through what it flips. -/
theorem edgeModesAgreeOnScreen : Obligations.EdgeModesAgreeOnScreen := by
  unfold Obligations.EdgeModesAgreeOnScreen
  intro x y n s hx hy
  have hdrawing : spriteDrawing .clip x y n s = spriteDrawing .wrap x y n s :=
    ((spriteDrawing_flips .clip x y n s).congr (inMask_clip_iff_wrap hx hy)).unique (spriteDrawing_flips .wrap x y n s)
  rw [drawSprite, drawSprite, hdrawing]

end Sys2Proof.Machine
end

section
/-! PROOFS. The host's reset call (R260 to R262), and the ends of a run (R275): which signal a `step` raises under any parameters, what
a jump to itself leaves, and that no call of the host but a supply moves the engine from an end. -/

namespace Sys2Proof.Machine

open Sys2Proof.Spec Sys2Proof.Laws

/-- Settles O43: the call makes the reset state, and its memory is the image over the glyph table and the fill. -/
theorem initializeMakesResetState : Obligations.InitializeMakesResetState := by
  unfold Obligations.InitializeMakesResetState
  exact fun s image rest hhost => ⟨rfl, fun p => ⟨_, initializeMachine_mem_wf p image { s with host := rest },
    stepWith_of_call p hhost, initializeMachine_mem_read p image { s with host := rest }⟩⟩

/-! ## The error a step raises -/

theorem isError_of_operandError {i : Instr} {s : State} {g : Signal} (h : operandError i s = some g) : g.isError = true := by
  cases i
  case ret | callNNN | drwVxVyN | bcdVx | ldMemVx | ldVxMem | skpVx | sknpVx | ldFVx =>
    obtain ⟨-, hg⟩ := Option.ite_none_right_eq_some.mp h
    cases hg
    rfl
  all_goals cases h

/-- Under any parameters an instruction raises the signal of its failed operand check, and changes nothing else (R231, R236). -/
theorem execWith_of_error (p : Params) {i : Instr} {s : State} {g : Signal} (h : operandError i s = some g) :
    execWith p i s = .next { s with returned := .signal g } := by
  cases i
  case shrVxVy | shlVxVy => cases h
  case drwVxVyN x y n =>
    obtain ⟨hout, hg⟩ := Option.ite_none_right_eq_some.mp h
    cases hg
    exact drawSprite_of_outOfRange hout
  all_goals exact exec_of_error h

theorem completed_isError_eq_false (i : Instr) (s : State) : (completed i s).returned.isError = false :=
  goodSignal_isError_eq_false i

/-- Under any parameters an instruction whose operand check passes returns no error signal. -/
theorem execWith_of_no_error (p : Params) {i : Instr} {s : State} (h : operandError i s = none) :
    ∃ t, execWith p i s = .next t ∧ t.returned.isError = false := by
  cases i
  case shrVxVy | shlVxVy => exact ⟨_, rfl, rfl⟩
  case drwVxVyN x y n =>
    have hin : ¬s.I.toNat + n.toNat > 0x1000 := by simpa [operandError] using h
    exact ⟨_, drawSprite_of_inRange (Nat.le_of_not_gt hin), rfl⟩
  all_goals exact ⟨_, exec_of_no_error h, completed_isError_eq_false _ s⟩

/-- The error signal a `step()` raises in Ready, by the checks of R235 in their order: the fetch, the decode, the operands. -/
def State.stepError (p : Params) (s : State) : Option Signal :=
  s.fetch.elim (some .fetchOutOfRange) fun w =>
    (decodeWordWith p.admit8XY0 w).elim (some .invalidInstruction) fun i => operandError i s

/-- No check of a step reads the keys, the host's calls or what the last transaction returned. -/
theorem State.stepError_congr (p : Params) (s : State) (keys : Word) (host : List HostCall) (r : Returned) :
    State.stepError p { s with keys := keys, host := host, returned := r } = s.stepError p := by
  have hoperand (i : Instr) : operandError i { s with keys := keys, host := host, returned := r } = operandError i s := by
    cases i <;> rfl
  have hfetch : State.fetch { s with keys := keys, host := host, returned := r } = s.fetch := State.fetch_congr rfl rfl
  simp only [State.stepError, hoperand, hfetch]

/-- In Ready a `step()` raises its error, or it goes on to return another signal (R236). -/
theorem engineStep_error_cases (p : Params) {s : State} (hready : s.phase = .ready) :
    (∃ g, s.stepError p = some g ∧ g.isError = true ∧ engineStep p s = .next { s with returned := .signal g }) ∨
    (s.stepError p = none ∧ ∃ t, engineStep p s = .next t ∧ t.returned.isError = false) := by
  rcases engineStep_cases p s with ⟨hp, -⟩ | ⟨-, hf, he⟩ | ⟨w, -, hf, hd, he⟩ | ⟨w, i, -, hf, hd, he⟩
  · exact absurd hready hp
  · exact .inl ⟨_, by rw [State.stepError, hf]; rfl, rfl, he⟩
  · exact .inl ⟨_, by rw [State.stepError, hf, Option.elim, hd]; rfl, rfl, he⟩
  · have hcheck : s.stepError p = operandError i s := by rw [State.stepError, hf, Option.elim, hd]; rfl
    rw [hcheck, he]
    cases herr : operandError i s with
    | some g => exact .inl ⟨g, rfl, isError_of_operandError herr, execWith_of_error p herr⟩
    | none => exact .inr ⟨rfl, execWith_of_no_error p herr⟩

theorem State.stepRaises_eq (p : Params) {s : State} (hready : s.phase = .ready) :
    s.stepRaises p = (s.stepError p).isSome := by
  rcases engineStep_error_cases p hready with ⟨g, herr, hg, he⟩ | ⟨herr, t, he, ht⟩
  · rw [State.stepRaises, he, herr]; exact hg
  · rw [State.stepRaises, he, herr]; exact ht

/-! ## The three ends -/

theorem State.runEnd_of_ready (p : Params) {s : State} (hready : s.phase = .ready) :
    s.runEnd p = if s.stepRaises p then some .error else if s.jumpsToSelf then some .jumpToSelf else none := by
  rw [State.runEnd, hready]

theorem State.runEnd_of_suspended (p : Params) {s : State} (hphase : s.phase ≠ .ready) : s.runEnd p = some .suspension := by
  rw [State.runEnd]
  cases hp : s.phase with
  | ready => exact absurd hp hphase
  | suspRandom | suspKey | suspDelay => rfl

/-- Whether a state is an end does not depend on the keys, the host's calls or what the last transaction returned. -/
theorem State.runEnd_congr (p : Params) (s : State) (keys : Word) (host : List HostCall) (r : Returned) :
    State.runEnd p { s with keys := keys, host := host, returned := r } = s.runEnd p := by
  by_cases hready : s.phase = .ready
  · have hraises : State.stepRaises p { s with keys := keys, host := host, returned := r } = s.stepRaises p := by
      rw [State.stepRaises_eq p hready, ← s.stepError_congr p keys host r]
      exact State.stepRaises_eq p hready
    rw [s.runEnd_of_ready p hready, ← hraises]
    exact State.runEnd_of_ready p hready
  · rw [s.runEnd_of_suspended p hready]
    exact State.runEnd_of_suspended p hready

/-- A jump to its own address leaves `pc` (R106). -/
theorem engineStep_of_jumpsToSelf (p : Params) {s : State} (hready : s.phase = .ready) (h : s.jumpsToSelf = true) :
    engineStep p s = .next { s with returned := .signal .completed } := by
  rw [State.jumpsToSelf, Bool.and_eq_true, beq_iff_eq, decide_eq_true_iff] at h
  obtain ⟨hfetch, hpc⟩ := h
  have htarget : addrOperand (s.pc.extractLsb' 0 12) = s.pc := by
    refine BitVec.eq_of_toNat_eq ?_
    simp only [addrOperand, BitVec.toNat_setWidth, BitVec.extractLsb'_toNat, Nat.shiftRight_zero]
    omega
  rw [engineStep_of_fetch p hready hfetch (RoundTrip.jpNNN _ _ rfl)]
  refine (transfer_next_iff _ s _).mpr ?_
  rw [htarget]

/-- What a `step()` returns at an end. -/
structure RunEnd.StepReturns (e : RunEnd) (r : Returned) : Prop where
  of_error : e = .error → r.isError = true
  of_jumpToSelf : e = .jumpToSelf → r = .signal .completed
  of_suspension : e = .suspension → r = .rejected

/-- At an end a `step()` changes nothing but the record of what it returned (R236, R106, R222). -/
theorem engineStep_of_runEnd (p : Params) {s : State} {e : RunEnd} (hend : s.runEnd p = some e) :
    ∃ r, engineStep p s = .next { s with returned := r } ∧ e.StepReturns r := by
  by_cases hready : s.phase = .ready
  · rw [s.runEnd_of_ready p hready, s.stepRaises_eq p hready] at hend
    rcases engineStep_error_cases p hready with ⟨g, herr, hg, he⟩ | ⟨herr, -⟩
    · rw [herr] at hend
      cases hend
      exact ⟨_, he, fun _ => hg, nofun, nofun⟩
    · rw [herr] at hend
      obtain ⟨hjump, rfl⟩ : s.jumpsToSelf = true ∧ RunEnd.jumpToSelf = e := by simpa using hend
      exact ⟨_, engineStep_of_jumpsToSelf p hready hjump, nofun, fun _ => rfl, nofun⟩
  · rw [s.runEnd_of_suspended p hready] at hend
    cases hend
    exact ⟨_, engineStep_of_suspended p hready, nofun, nofun, fun _ => rfl⟩

/-! ## The host's next call at an end -/

/-- Whether a call is a supply (R217 to R219). -/
def HostCall.IsSupply (c : HostCall) : Prop :=
  (∃ v, c = .supplyRandom v) ∨ (∃ v, c = .supplyKey v) ∨ (∃ v, c = .supplyDelay v)

/-- A supply completes a suspension, or it is rejected and changes nothing (R216, R222). -/
theorem supply_next_cases {kind : Phase} {inRange : Bool} {value : Word → Byte} {s t : State}
    (h : supply kind inRange value s = .next t) (hkind : kind ≠ .ready) :
    t = { s with keys := t.keys, returned := t.returned } ∨ (s.phase ≠ .ready ∧ t.phase = .ready) := by
  rcases supply_cases kind inRange value s with ⟨w, hphase, -, -, hs⟩ | ⟨-, -, -, hs⟩ | ⟨-, hs⟩ <;> rw [hs] at h
  · cases h
    exact .inr ⟨by rwa [hphase], rfl⟩
  · cases h
  · rw [reject_next_iff] at h
    exact .inl (by rw [h])

/-- At an end a call other than the reset call changes nothing but the keys and the record, or it is a supply that completes a
suspension. -/
theorem transact_of_runEnd {p : Params} {s t : State} {e : RunEnd} {c : HostCall} (hend : s.runEnd p = some e)
    (h : transact p c s = .next t) (hinit : ∀ image, c ≠ .initializeWith image) :
    t = { s with keys := t.keys, returned := t.returned } ∨ (s.phase ≠ .ready ∧ t.phase = .ready ∧ c.IsSupply) := by
  cases c with
  | initializeWith image => exact absurd rfl (hinit image)
  | step =>
    obtain ⟨r, hstep, -⟩ := engineStep_of_runEnd p hend
    cases hstep.symm.trans h
    exact .inl rfl
  | supplyRandom v =>
    exact (supply_next_cases h nofun).imp_right fun ⟨hs, ht⟩ => ⟨hs, ht, .inl ⟨v, rfl⟩⟩
  | supplyKey v =>
    exact (supply_next_cases h nofun).imp_right fun ⟨hs, ht⟩ => ⟨hs, ht, .inr (.inl ⟨v, rfl⟩)⟩
  | supplyDelay v =>
    exact (supply_next_cases h nofun).imp_right fun ⟨hs, ht⟩ => ⟨hs, ht, .inr (.inr ⟨v, rfl⟩)⟩
  | setKeys | readFramebuffer | readKeys => cases h; exact .inl rfl

/-- Settles O60: the pending call is made at the same end, where it changes nothing the end depends on or completes a suspension. -/
theorem endsOfARunLast : Obligations.EndsOfARunLast := by
  unfold Obligations.EndsOfARunLast
  intro p s t e c rest hend hhost h hinit
  rw [stepWith_of_call p hhost] at h
  have hend' : State.runEnd p { s with host := rest } = some e := (s.runEnd_congr p s.keys rest s.returned).trans hend
  have hreturns (hc : c = .step) : e.StepReturns t.returned := by
    subst hc
    obtain ⟨r, hstep, hr⟩ := engineStep_of_runEnd p hend'
    cases hstep.symm.trans h
    exact hr
  refine and_assoc.mp ⟨?_, fun he hc => (hreturns hc).of_error he, fun he hc => (hreturns hc).of_jumpToSelf he,
    fun he hc => (hreturns hc).of_suspension he⟩
  rcases transact_of_runEnd hend' h hinit with hframe | ⟨hsuspended, hready, hsupply⟩
  · have hphase : t.phase = s.phase := by rw [hframe]
    have hlasts : t.runEnd p = some e := by
      rw [hframe]
      exact (s.runEnd_congr p t.keys rest t.returned).trans hend
    exact ⟨fun _ => ⟨hframe, hlasts⟩, fun hmoved => absurd hphase hmoved⟩
  · have hsuspension : e = .suspension := by
      cases (s.runEnd_of_suspended p hsuspended).symm.trans hend
      rfl
    exact ⟨fun hphase => absurd (hphase.symm.trans hready) hsuspended, fun _ => ⟨hsuspension, hready, hsupply⟩⟩

end Sys2Proof.Machine
end
